-- ==== Sys2Proof/Word.lean ====
section
/-!
DEFINITION. Word.lean: the two word types of the block.
-/

namespace Sys2Proof

/-- A channel word (spec R2: `CW` = 32, fixed), and the container of one `W`-bit fixed-point scalar (R61): the scalar
stands in bits `[W-1:0]`. Registers and memory words hold scalars in their sign-extended container. -/
abbrev Word := BitVec 32

/-- A byte of a byte-addressed transport (R35). -/
abbrev Byte := BitVec 8

end Sys2Proof
end

