-- ==== Sys2Proof/Config.lean ====
section
/-!
DEFINITION. Config.lean: what is fixed when the block is instantiated (R2, R28), and the free values: the stored
values the spec calls unspecified (R9).
-/

namespace Sys2Proof

/-- `RND`, the rounding of the product in `qmul` (R2, R70). -/
inductive Rounding where
  | HALF_UP
  | TRUNC
deriving DecidableEq, Repr

/-- The implementation parameters of one block with their constraints (R2). `K_MAX` is derived (Machine/Scalar.lean)
and `CW` is the width of `Word`. The constraints are part of the value: no other block exists. The last two fields are
not parameters of R2: they are the buffering an implementation happens to have (R155), any number of words
(notes/assumptions/7.md). -/
structure Config where
  W : Nat
  F : Nat
  RND : Rounding
  NS_MAX : Nat
  /-- The command channel words that fit in the implementation's input buffer while the engine is busy (R155). -/
  cmdBuf : Nat
  /-- The response words the response channel takes from the engine before the host takes them (R155). -/
  rspBuf : Nat
  valid : 4 ≤ W ∧ W ≤ 32 ∧ 1 ≤ F ∧ F + 3 ≤ W ∧ 1 ≤ NS_MAX ∧ NS_MAX ≤ 255
deriving DecidableEq, Repr

namespace Config

/-- The reference configuration (R2); its buffers hold any one frame or response (notes/assumptions/7.md). -/
def reference : Config := ⟨32, 24, .HALF_UP, 16, 65536, 65536, by decide⟩

/-! Free values (R9, R24, R27; notes/assumptions/4.md). The first argument is the number of the draw, taken from
`State.draws`; a memory space also has the word address. Nothing is known of them. -/

/-- What `NS` holds after hardware reset or DESTROY. -/
opaque freeNS : Nat → BitVec 8

/-- What `K` holds after hardware reset or DESTROY. -/
opaque freeK : Nat → BitVec 16

/-- What `G` holds after hardware reset or DESTROY. -/
opaque freeG : Nat → Word

/-- What the words of `COEF` hold after hardware reset or DESTROY. -/
opaque freeCOEF : Nat → Nat → Word

/-- What the words of `DLY` hold after hardware reset or DESTROY. -/
opaque freeDLY : Nat → Nat → Word

end Config

end Sys2Proof
end

