-- ==== Sys2Proof/Syntax.lean ====
section
/-!
DEFINITION. Syntax.lean: the four commands, one constructor per row of spec/opcode_table.json (R47 to R50). A header
that is no command (R55) is no `Instr`: the decoder names it `Decoded.illegal`.
-/

namespace Sys2Proof

/-- One decoded command frame (R45, R105). Payload words are raw channel words. -/
inductive Instr where
  /-- BUILD (R47): header fields `NS` and `K`, payload `5 * NS` words, section-major, `b0 b1 b2 a1 a2` per section. -/
  | build (ns : BitVec 8) (k : BitVec 16) (payload : List Word)
  /-- EXEC (R48): the input sample, real part then imaginary part. -/
  | exec (re im : Word)
  /-- RESET (R49): zero the delay registers. -/
  | reset
  /-- DESTROY (R50): release the cascade. -/
  | destroy
deriving DecidableEq, Repr

end Sys2Proof
end

