-- ==== Sys2Proof/WellFormed.lean ====
section
/-!
DEFINITION. WellFormed.lean: which terms of `Instr` are frames the decoder can hand to the engine (R45).
-/

namespace Sys2Proof

/-- The frame length is fixed by the header: a BUILD carries exactly `5 * NS` payload words, `NS` the raw header
field (R45, R47). The other commands carry their operands as constructor arguments. -/
def Instr.wellFormed : Instr → Bool
  | .build ns _ payload => payload.length == 5 * ns.toNat
  | .exec _ _ => true
  | .reset => true
  | .destroy => true

/-- `i` is a frame the decoder can produce. -/
abbrev WellFormed (i : Instr) : Prop := i.wellFormed = true

end Sys2Proof
end

