-- ==== Sys2Proof/Decode.lean ====
section
/-!
DEFINITION. Decode.lean: the decoder of the command channel (R45 to R57), the encoder written from the same table,
and the byte transport of R35.
-/

namespace Sys2Proof

/-- The rows of the opcode map (R54). -/
inductive Op where
  | BUILD
  | EXEC
  | RESET
  | DESTROY
deriving DecidableEq, Repr

/-- One row of the opcode map (R54): header `h` matches when `h & mask = pat`. -/
structure OpRow where
  op : Op
  pat : Word
  mask : Word
deriving DecidableEq, Repr

/-- The complete opcode map (R54). -/
def opcodeMap : List OpRow :=
  [⟨.BUILD, 0x01000000, 0xFF000000⟩,
   ⟨.EXEC, 0x02000000, 0xFFFFFFFF⟩,
   ⟨.RESET, 0x03000000, 0xFFFFFFFF⟩,
   ⟨.DESTROY, 0x04000000, 0xFFFFFFFF⟩]

/-- `h` matches the row (R54). -/
def OpRow.covers (r : OpRow) (h : Word) : Bool := h &&& r.mask == r.pat

/-- The first row whose pattern the header matches (R54); none: the header is illegal (R55). -/
def selectRow (h : Word) : Option Op := (opcodeMap.find? (fun r => r.covers h)).map OpRow.op

/-- The opcode byte `OPC`, header bits `[31:24]` (R46). -/
def opcField (h : Word) : BitVec 8 := h.extractLsb' 24 8

/-- The header field `NS`, bits `[23:16]` (R46, R53). -/
def nsField (h : Word) : BitVec 8 := h.extractLsb' 16 8

/-- The header field `K`, bits `[15:0]` (R46, R53). -/
def kField (h : Word) : BitVec 16 := h.extractLsb' 0 16

/-- The opcode byte of each command (R46). -/
def Op.code : Op → BitVec 8
  | .BUILD => 0x01
  | .EXEC => 0x02
  | .RESET => 0x03
  | .DESTROY => 0x04

/-- How many payload words follow header `h` of command `op` (R45): for BUILD from the raw field, before any check. -/
def payloadLength (op : Op) (h : Word) : Nat :=
  match op with
  | .BUILD => 5 * (nsField h).toNat
  | .EXEC => 2
  | .RESET => 0
  | .DESTROY => 0

/-- The frame length in channel words, a function of the header alone; 1 for an illegal header (R45, R55). -/
def frameLength (h : Word) : Nat :=
  match selectRow h with
  | some op => 1 + payloadLength op h
  | none => 1

/-- The command of header `h` with its payload words (R47 to R50, R57). -/
def assembleFrame (op : Op) (h : Word) (payload : List Word) : Instr :=
  match op with
  | .BUILD => .build (nsField h) (kField h) payload
  | .EXEC => .exec (payload.getD 0 0) (payload.getD 1 0)
  | .RESET => .reset
  | .DESTROY => .destroy

/-- What the decoder finds at a frame boundary of the command stream (R57). -/
inductive Decoded where
  /-- A whole frame, and the stream after it. -/
  | frame (i : Instr) (rest : List Word)
  /-- A header that matches no row: a frame of one word, no payload consumed (R55). -/
  | illegal (h : Word) (rest : List Word)
  /-- The stream ends at a frame boundary or inside a payload: the decoder waits (R57, R161). -/
  | incomplete
deriving DecidableEq, Repr

/-- The decoder, total on any sequence of channel words (R57). -/
def decode : List Word → Decoded
  | [] => .incomplete
  | h :: tl =>
    match selectRow h with
    | none => .illegal h tl
    | some op =>
      if tl.length < payloadLength op h then .incomplete
      else .frame (assembleFrame op h (tl.take (payloadLength op h))) (tl.drop (payloadLength op h))

/-- A header word: `OPC` in `[31:24]`, `NS` in `[23:16]`, `K` in `[15:0]` (R46). -/
def headerWord (opc : BitVec 8) (ns : BitVec 8) (k : BitVec 16) : Word := opc ++ ns ++ k

/-- The channel words of a command (R47 to R50). -/
def encode : Instr → List Word
  | .build ns k payload => headerWord Op.BUILD.code ns k :: payload
  | .exec re im => [headerWord Op.EXEC.code 0 0, re, im]
  | .reset => [headerWord Op.RESET.code 0 0]
  | .destroy => [headerWord Op.DESTROY.code 0 0]

/-! ### The byte transport (R35) -/

/-- The four bytes of a channel word in a byte-addressed medium, least significant first (R35). -/
def bytesOfWord (w : Word) : List Byte :=
  [w.extractLsb' 0 8, w.extractLsb' 8 8, w.extractLsb' 16 8, w.extractLsb' 24 8]

/-- A frame's bytes: its channel words in frame order (R35). -/
def bytesOfWords (ws : List Word) : List Byte := ws.flatMap bytesOfWord

/-- The channel words of a byte stream; a last group of fewer than four bytes is no word yet (R35). -/
def wordsOfBytes : List Byte → List Word
  | b0 :: b1 :: b2 :: b3 :: rest => (b3 ++ b2 ++ b1 ++ b0) :: wordsOfBytes rest
  | _ => []

/-- The decoder on any bytes: four bytes a channel word (R35), then `decode`. -/
def decodeBytes (bs : List Byte) : Decoded := decode (wordsOfBytes bs)

/-! ### The opcode table's numbering of an instruction's bits -/

/-- The channel words of the frame whose bits are `w`, bit 0 the least significant bit of the header and a later
word's bits counting on from it; every bit above `nbits` is 0. The header fixes how many words there are (R45). -/
def tableWords (nbits w : Nat) : List Word :=
  (List.range (frameLength (BitVec.ofNat 32 (w % 2 ^ nbits)))).map
    (fun j => BitVec.ofNat 32 ((w % 2 ^ nbits) >>> (32 * j)))

/-- The command the decoder reads from the frame `tableWords nbits w`; none where it refuses. -/
def decodeTableWord (nbits w : Nat) : Option Instr :=
  match decode (tableWords nbits w) with
  | .frame i _ => some i
  | .illegal _ _ => none
  | .incomplete => none

end Sys2Proof
end

