-- ==== Sys2Proof/Machine/State.lean ====
section
/-!
DEFINITION. Machine/State.lean: the state of one block (R10), its faults and refusals, and the state after reset
(R24, R150).
-/

namespace Sys2Proof.Machine

/-- Why a step stops with a fault. -/
inductive Fault where
  /-- EXEC or RESET with `NS > NS_MAX`: an access to a word address outside `COEF` or `DLY` (R30, R40). Raised by
  execExec and execReset. No reachable state has it (`Inv`, R22 (b)). Safe: the machine stops where the spec says an
  out-of-range address cannot occur. -/
  | noSuchAddress
deriving DecidableEq, Repr

/-- Why an instruction is refused. -/
inductive Refusal where
  /-- An instruction whose meaning is not written; raised by exec's own arms only. Safe. -/
  | notModelled (mnemonic : String)
  /-- A BUILD term whose payload is not `5 * NS` words (not `WellFormed`): the decoder never makes one (R45). Raised
  by execBuild. Safe. -/
  | malformedFrame
deriving DecidableEq, Repr

/-- The values of the lifecycle register `LIFE` (R13). -/
inductive Life where
  | NONE
  | CREATED
  | EXECUTING
  | DESTROYED
deriving DecidableEq, Repr

/-- One word-addressed space (R30): its words in address order, word `a` at index `a`. A word is one `W`-bit scalar in
its sign-extended container. There is no byte addressing inside the block. -/
abbrev Memory := List Word

/-- One complex value: a pair of scalars (R85). -/
structure Cplx where
  re : Word
  im : Word
deriving DecidableEq, Repr

/-- The state of one block. `LIFE` to `DLY` are the architectural state of R10. `cfg` is the block's own parameters
(R28, never written), `cmd` and `rsp` the two streams (R30, R34), `rst` the level of the reset port (R60), `draws` the
model's counter of free values (notes/assumptions/4.md). -/
structure State where
  /-- The parameters the block was instantiated with (R2, R28). -/
  cfg : Config
  /-- The lifecycle position (R13). -/
  LIFE : Life
  /-- The number of sections (R14). -/
  NS : BitVec 8
  /-- The interpolation factor (R15). -/
  K : BitVec 16
  /-- The gain word (R16). -/
  G : Word
  /-- The coefficient memory (R12, R31). -/
  COEF : Memory
  /-- The delay memory (R11, R32). -/
  DLY : Memory
  /-- Command channel words the block has accepted and no command has consumed, oldest first (R34). -/
  cmd : List Word
  /-- Response channel words the host has not taken, oldest first (R34). -/
  rsp : List Word
  /-- The level of the `rst` port (R60, R150). -/
  rst : Bool
  /-- How many times unspecified values were drawn. -/
  draws : Nat
deriving DecidableEq, Repr

/-- A block of any configuration right after hardware reset (R24, R150): `LIFE = NONE`, the decoder at a frame
boundary, no response pending, `rst` back at 0. What R24 leaves unspecified is zero here (notes/assumptions/3.md). -/
def State.resetOf (c : Config) : State where
  cfg := c
  LIFE := .NONE
  NS := 0
  K := 0
  G := 0
  COEF := List.replicate (5 * c.NS_MAX) 0
  DLY := List.replicate (4 * c.NS_MAX) 0
  cmd := []
  rsp := []
  rst := false
  draws := 0

/-- The block of the reference configuration (R2) right after hardware reset. -/
def State.reset : State := State.resetOf Config.reference

end Sys2Proof.Machine
end

