-- ==== Sys2Proof/Machine/Operands.lean ====
section
/-!
DEFINITION. Machine/Operands.lean: operand forms. The container of a `W`-bit word on the channels (R53, R61), and the
word addresses of the three spaces (R31 to R33, R123).
-/

namespace Sys2Proof.Machine

/-- The signed integer a word encodes: `sext(word[W-1:0])` (R6, R53, R61); the bits above `W - 1` are ignored. -/
def val (c : Config) (w : Word) : Int := (w.setWidth c.W).toInt

/-- A `W`-bit word in its 32-bit container: bits `[31:W]` are copies of bit `W-1` (R61). -/
def container (c : Config) (w : Word) : Word := (w.setWidth c.W).signExtend 32

/-- `w` is a `W`-bit word in its container. -/
abbrev IsWord (c : Config) (w : Word) : Prop := container c w = w

/-- The input sample of an EXEC (R48, R107): two payload words, each read as R61 says. -/
def sampleOperand (c : Config) (re im : Word) : Cplx := ⟨container c re, container c im⟩

/-- The coefficient words of a BUILD payload, each read as R61 says, in payload order (R47, R106). -/
def coefficientOperands (c : Config) (payload : List Word) : List Word := payload.map (container c)

/-- The address of `COEF[s][j]` (R31). -/
abbrev coefAddr (s j : Nat) : Nat := 5 * s + j

/-- The address of `W1[s].re`; `W1[s].im` is the next word (R32). -/
abbrev w1Addr (s : Nat) : Nat := 4 * s

/-- The address of `W2[s].re`; `W2[s].im` is the next word (R32). -/
abbrev w2Addr (s : Nat) : Nat := 4 * s + 2

/-- The address of `OUT[p].re`; `OUT[p].im` is the next word (R33). -/
abbrev outAddr (p : Nat) : Nat := 2 * p

/-- The words of the output burst in the order of R33, which is the order of an EXEC response's payload (R52). -/
def outWords (out : List Cplx) : List Word := out.flatMap (fun z => [z.re, z.im])

/-- The first address past the used words of `COEF` when `ns` sections are in use (R31). -/
abbrev coefUsed (ns : BitVec 8) : Nat := 5 * ns.toNat

/-- The first address past the used words of `DLY` when `ns` sections are in use (R32). -/
abbrev dlyUsed (ns : BitVec 8) : Nat := 4 * ns.toNat

end Sys2Proof.Machine
end

