-- ==== Sys2Proof/Machine/Scalar.lean ====
section
/-!
DEFINITION. Machine/Scalar.lean: the scalar fixed-point saturating unit (R65 to R78, R82). A word means the signed
integer `val c w`; arithmetic is exact until `sat`.
-/

namespace Sys2Proof.Machine

/-- The greatest representable integer, `2^(W-1) - 1` (R3). -/
def MAXV (c : Config) : Int := 2 ^ (c.W - 1) - 1

/-- The least representable integer, `-2^(W-1)` (R3). -/
def MINV (c : Config) : Int := -2 ^ (c.W - 1)

/-- The integer whose real value is 1.0 (R3, R77). -/
def ONE (c : Config) : Int := 2 ^ c.F

/-- Half of `ONE`, the rounding constant of `HALF_UP` (R3, R70). -/
def HALF (c : Config) : Int := 2 ^ (c.F - 1)

/-- The largest interpolation factor (R2). -/
def K_MAX (c : Config) : Nat := min (2 ^ (c.W - 1 - c.F) - 1) 32767

/-- The word that encodes `n`, for `n` in range (R6, R66). -/
def wordOf (n : Int) : Word := BitVec.ofInt 32 n

/-- The clamp as an integer (R67). -/
def clamp (c : Config) (n : Int) : Int :=
  if n > MAXV c then MAXV c else if n < MINV c then MINV c else n

/-- `sat(n)`: the word of the clamped integer (R67). -/
def sat (c : Config) (n : Int) : Word := wordOf (clamp c n)

/-- `qadd(a, b)`, saturating add (R68). -/
def qadd (c : Config) (a b : Word) : Word := sat c (val c a + val c b)

/-- `qsub(a, b)`, saturating subtract, the difference taken exactly (R69). -/
def qsub (c : Config) (a b : Word) : Word := sat c (val c a - val c b)

/-- `rnd(p)`, the rounding of the exact product to `F` fraction bits (R70). -/
def rnd (c : Config) (p : Int) : Int :=
  match c.RND with
  | .HALF_UP => (p + HALF c) >>> c.F
  | .TRUNC => p >>> c.F

/-- `qmul(a, b)`: the full product, then the rounding, then the clamp (R71). -/
def qmul (c : Config) (a b : Word) : Word := sat c (rnd c (val c a * val c b))

/-- `qmac(acc, a, b)`, multiply-accumulate (R72). -/
def qmac (c : Config) (acc a b : Word) : Word := qadd c acc (qmul c a b)

/-- `qmsu(acc, a, b)`, multiply-subtract (R73). -/
def qmsu (c : Config) (acc a b : Word) : Word := qsub c acc (qmul c a b)

/-- `q_from_int(k) = k << F` (R82): how BUILD forms the gain word (R16, R106). DESIGN CHOICE: R82 bounds `k` only from
above; where `k << F` is no word (`k * 2^F < MINV`, or above `MAXV`) it is taken modulo `2^32`. No command reaches that
case (notes/assumptions/22.md). -/
def qFromInt (c : Config) (k : Int) : Word := wordOf (k <<< c.F)

end Sys2Proof.Machine
end

