-- ==== Sys2Proof/Machine/Complex.lean ====
section
/-!
DEFINITION. Machine/Complex.lean: the complex operations, each the scalar operation once per lane (R85 to R92).
-/

namespace Sys2Proof.Machine

/-- The fixed-point zero value (R85). -/
def czero : Cplx := ⟨0, 0⟩

/-- `cadd(y, z)` (R86). -/
def cadd (c : Config) (y z : Cplx) : Cplx := ⟨qadd c y.re z.re, qadd c y.im z.im⟩

/-- `csub(y, z)` (R87). -/
def csub (c : Config) (y z : Cplx) : Cplx := ⟨qsub c y.re z.re, qsub c y.im z.im⟩

/-- `cscale(x, z)`, complex multiply by the real scalar `x` (R88). -/
def cscale (c : Config) (x : Word) (z : Cplx) : Cplx := ⟨qmul c x z.re, qmul c x z.im⟩

/-- `cmac(acc, x, z)` (R89). -/
def cmac (c : Config) (acc : Cplx) (x : Word) (z : Cplx) : Cplx := cadd c acc (cscale c x z)

/-- `cmsu(acc, x, z)` (R90). -/
def cmsu (c : Config) (acc : Cplx) (x : Word) (z : Cplx) : Cplx := csub c acc (cscale c x z)

end Sys2Proof.Machine
end

