-- ==== Sys2Proof/Machine/Flags.lean ====
section
/-!
DEFINITION. Machine/Flags.lean: the block has no flags (R18); what a command reports is the `STATUS` of its response.
The codes (R131), the checks that choose one (R106 to R109, R134), and the response frame (R51, R52).
-/

namespace Sys2Proof.Machine

/-- The status codes the hardware produces (R131). -/
inductive Status where
  | OK
  | BUILD_ERR_K
  | BUILD_ERR_EMPTY
  | BUILD_ERR_K_RANGE
  | BUILD_ERR_NS_RANGE
  | BUILD_ERR_LIVE
  | USAGE_ERR_HANDLE
  | USAGE_ERR_EMPTY
  | ILLEGAL_CMD
deriving DecidableEq, Repr

/-- The value of a status code (R131). -/
def Status.code : Status → BitVec 8
  | .OK => 0x00
  | .BUILD_ERR_K => 0x20
  | .BUILD_ERR_EMPTY => 0x21
  | .BUILD_ERR_K_RANGE => 0x22
  | .BUILD_ERR_NS_RANGE => 0x23
  | .BUILD_ERR_LIVE => 0x24
  | .USAGE_ERR_HANDLE => 0x30
  | .USAGE_ERR_EMPTY => 0x31
  | .ILLEGAL_CMD => 0x40

/-- The kind of a code (R130, R131). -/
inductive StatusKind where
  | success
  | designError
  | buildError
  | usageError
  | illegalCommand
deriving DecidableEq, Repr

/-- The kind of a status code, its high nibble (R131); `none` for a nibble R131 does not use. -/
def kindOfCode (b : BitVec 8) : Option StatusKind :=
  match (b.extractLsb' 4 4).toNat with
  | 0 => some .success
  | 1 => some .designError
  | 2 => some .buildError
  | 3 => some .usageError
  | 4 => some .illegalCommand
  | _ => none

/-- The kind each status belongs to by R131's table. -/
def Status.kind : Status → StatusKind
  | .OK => .success
  | .BUILD_ERR_K => .buildError
  | .BUILD_ERR_EMPTY => .buildError
  | .BUILD_ERR_K_RANGE => .buildError
  | .BUILD_ERR_NS_RANGE => .buildError
  | .BUILD_ERR_LIVE => .buildError
  | .USAGE_ERR_HANDLE => .usageError
  | .USAGE_ERR_EMPTY => .usageError
  | .ILLEGAL_CMD => .illegalCommand

/-- The cascade is live: `LIFE` is `CREATED` or `EXECUTING`, the handle is valid (R4, R13). -/
def Life.live : Life → Bool
  | .NONE => false
  | .CREATED => true
  | .EXECUTING => true
  | .DESTROYED => false

/-- The two bits of `LIFE` (R13). -/
def Life.code : Life → BitVec 2
  | .NONE => 0
  | .CREATED => 1
  | .EXECUTING => 2
  | .DESTROYED => 3

/-- BUILD's checks, in the order of R106: the first that fails, or none (R134). -/
def buildCheck (c : Config) (ns : BitVec 8) (k : BitVec 16) (life : Life) : Option Status :=
  if k.toNat < 2 then some .BUILD_ERR_K
  else if ns.toNat = 0 then some .BUILD_ERR_EMPTY
  else if k.toNat > K_MAX c then some .BUILD_ERR_K_RANGE
  else if ns.toNat > c.NS_MAX then some .BUILD_ERR_NS_RANGE
  else if life.live then some .BUILD_ERR_LIVE
  else none

/-- The handle check of RESET and DESTROY (R108, R109). -/
def handleCheck (life : Life) : Option Status :=
  if life.live then none else some .USAGE_ERR_HANDLE

/-- EXEC's checks, in the order of R107. -/
def execCheck (life : Life) (ns : BitVec 8) : Option Status :=
  if life.live then
    if ns.toNat = 0 then some .USAGE_ERR_EMPTY else none
  else some .USAGE_ERR_HANDLE

/-- One response frame (R51): the opcode echo, the status, the payload words. -/
structure Response where
  opc : BitVec 8
  status : Status
  payload : List Word
deriving DecidableEq, Repr

/-- The header `COUNT` field (R51): the number of payload words. -/
def Response.count (r : Response) : BitVec 16 := BitVec.ofNat 16 r.payload.length

/-- The response header word `{OPC, STATUS, COUNT}` (R51). -/
def Response.header (r : Response) : Word := r.opc ++ r.status.code ++ r.count

/-- The channel words of a response frame (R51, R52). -/
def Response.words (r : Response) : List Word := r.header :: r.payload

end Sys2Proof.Machine
end

