-- ==== Sys2Proof/Machine/Ops.lean ====
section
/-!
DEFINITION. Machine/Ops.lean: the shared operations: words of a memory space (R7, R30 to R40), emitting a response
(R51) and waiting for it to be accepted (R155), ending a command in an error (R133), and the two events that leave the
storage unspecified (R27, R150).
-/

namespace Sys2Proof.Machine

/-! ### Memory spaces -/

/-- `MemRead(SP:a, 1)` (R7, R37). The value past the end of the space is never used: every command is checked against
the space first (R40). -/
def memRead (m : Memory) (a : Nat) : Word := m.getD a 0

/-- `MemWrite(SP:a, 1, v)` (R7, R37, R39): word `a` and nothing else. -/
def memWrite (m : Memory) (a : Nat) (v : Word) : Memory := m.set a v

/-- `MemWrite(SP:a, n, v)` (R7): the `n` words of `v` from address `a` up. -/
def memWriteBlock (m : Memory) (a : Nat) : List Word → Memory
  | [] => m
  | v :: vs => memWriteBlock (memWrite m a v) (a + 1) vs

/-- A complex register, two words, one per lane (R37). -/
def cplxRead (m : Memory) (a : Nat) : Cplx := ⟨memRead m a, memRead m (a + 1)⟩

/-- Write a complex register (R37). -/
def cplxWrite (m : Memory) (a : Nat) (z : Cplx) : Memory := memWrite (memWrite m a z.re) (a + 1) z.im

/-- The form of a space's contents: one `W`-bit word per word address (R22 (a), R30). -/
abbrev Memory.wf (c : Config) (size : Nat) (m : Memory) : Prop := m.length = size ∧ ∀ w ∈ m, IsWord c w

/-- `W1[s] <- czero ; W2[s] <- czero` for `s` in `0 .. ns-1` (R106, R108). -/
def clearDelays (dly : Memory) : Nat → Memory
  | 0 => dly
  | n + 1 => cplxWrite (cplxWrite (clearDelays dly n) (w1Addr n) czero) (w2Addr n) czero

/-- A space whose `size` words are unspecified: `W`-bit words of which nothing else is known (R9, R22 (a)). -/
def unspecifiedMemory (c : Config) (size : Nat) (free : Nat → Word) : Memory :=
  (List.range size).map (fun a => container c (free a))

/-! ### Responses and errors -/

/-- `respond(code, words)` (R7, R51): the frame joins the response stream after every earlier one (R34). -/
def respond (op : BitVec 8) (st : Status) (payload : List Word) (s : State) : State :=
  { s with rsp := s.rsp ++ (Response.mk op st payload).words }

/-- The response of the last command has not been accepted into the response channel: more words are undelivered than
the channel holds (R155). The engine then starts no command. -/
def State.stalled (s : State) : Bool := decide (s.cfg.rspBuf < s.rsp.length)

/-- `raise <Error>(code)` (R7, R133): the command ends with the response `{OPC, code, COUNT = 0}` and writes no
architectural state. The next frame runs as if the command had not been issued; there is no return from an error
(R138). -/
def raiseError (op : BitVec 8) (st : Status) (s : State) : State := respond op st [] s

/-! ### Storage that becomes unspecified -/

/-- `NS`, `K`, `G`, `COEF`, `DLY` become unspecified (R24, R27): each a free value, drawn anew. -/
def releaseStorage (s : State) : State :=
  { s with
    NS := Config.freeNS s.draws
    K := Config.freeK s.draws
    G := container s.cfg (Config.freeG s.draws)
    COEF := unspecifiedMemory s.cfg (5 * s.cfg.NS_MAX) (Config.freeCOEF s.draws)
    DLY := unspecifiedMemory s.cfg (4 * s.cfg.NS_MAX) (Config.freeDLY s.draws)
    draws := s.draws + 1 }

/-- Hardware reset, an edge of `clk` with `rst` 1 (R150, R157): `LIFE <- NONE`, a partly received frame and every
undelivered response word are discarded, the rest is unspecified. -/
def hardwareReset (s : State) : State :=
  { releaseStorage s with LIFE := .NONE, cmd := [], rsp := [] }

end Sys2Proof.Machine
end

