-- ==== Sys2Proof/Machine/Sos.lean ====
section
/-!
DEFINITION. Machine/Sos.lean: the second-order-section stage (R95 to R103).
-/

namespace Sys2Proof.Machine

/-- The five coefficients of one section (R12, R95). -/
structure Coefs where
  b0 : Word
  b1 : Word
  b2 : Word
  a1 : Word
  a2 : Word
deriving DecidableEq, Repr

/-- The nine intermediate words of one lane of one stage step, in the order of R97. -/
structure LaneTrace where
  t1 : Word
  a : Word
  t2 : Word
  w0 : Word
  u0 : Word
  u1 : Word
  s1 : Word
  u2 : Word
  y : Word
deriving DecidableEq, Repr

/-- The nine primitive operations of R97; `w1` and `w2` are the values on entry. -/
def sosLaneTrace (c : Config) (k : Coefs) (w1 w2 x : Word) : LaneTrace :=
  let t1 := qmul c k.a1 w1
  let a := qsub c x t1
  let t2 := qmul c k.a2 w2
  let w0 := qsub c a t2
  let u0 := qmul c k.b0 w0
  let u1 := qmul c k.b1 w1
  let s1 := qadd c u0 u1
  let u2 := qmul c k.b2 w2
  let y := qadd c s1 u2
  ⟨t1, a, t2, w0, u0, u1, s1, u2, y⟩

/-- What one lane of a stage step returns (R97): the output and the two new delay words. -/
structure LaneResult where
  y : Word
  w1 : Word
  w2 : Word
deriving DecidableEq, Repr

/-- `sos_lane` (R97): `w2' = w1`, `w1' = w0`. -/
def sosLane (c : Config) (k : Coefs) (w1 w2 x : Word) : LaneResult :=
  ⟨(sosLaneTrace c k w1 w2 x).y, (sosLaneTrace c k w1 w2 x).w0, w1⟩

/-- `COEF[s][0..4]` (R12, R31). -/
def coefsOf (coef : Memory) (s : Nat) : Coefs :=
  ⟨memRead coef (coefAddr s 0), memRead coef (coefAddr s 1), memRead coef (coefAddr s 2),
   memRead coef (coefAddr s 3), memRead coef (coefAddr s 4)⟩

/-- `sos_step(s, v)` (R98): both lanes read the old `W1[s]`, `W2[s]`, then both registers are written (R101). -/
def sosStep (c : Config) (coef : Memory) (s : Nat) (v : Cplx) (dly : Memory) : Cplx × Memory :=
  let k := coefsOf coef s
  let w1 := cplxRead dly (w1Addr s)
  let w2 := cplxRead dly (w2Addr s)
  let re := sosLane c k w1.re w2.re v.re
  let im := sosLane c k w1.im w2.im v.im
  (⟨re.y, im.y⟩, cplxWrite (cplxWrite dly (w1Addr s) ⟨re.w1, im.w1⟩) (w2Addr s) ⟨re.w2, im.w2⟩)

/-! ### The stage as a program of primitive operations, for its order and its cost (R97, R103) -/

/-- The primitive operations of the datapath a stage uses (R76). -/
inductive Prim where
  | qmul
  | qsub
  | qadd
deriving DecidableEq, Repr

/-- The named words of one lane (R97). -/
inductive LaneReg where
  | b0 | b1 | b2 | a1 | a2 | w1 | w2 | x
  | t1 | a | t2 | w0 | u0 | u1 | s1 | u2 | y
deriving DecidableEq, Repr

/-- One line of R97: `dst = prim(l, r)`. -/
structure LaneOp where
  dst : LaneReg
  prim : Prim
  l : LaneReg
  r : LaneReg
deriving DecidableEq, Repr

/-- The nine lines of R97 in their order. -/
def laneProgram : List LaneOp :=
  [⟨.t1, .qmul, .a1, .w1⟩, ⟨.a, .qsub, .x, .t1⟩, ⟨.t2, .qmul, .a2, .w2⟩, ⟨.w0, .qsub, .a, .t2⟩,
   ⟨.u0, .qmul, .b0, .w0⟩, ⟨.u1, .qmul, .b1, .w1⟩, ⟨.s1, .qadd, .u0, .u1⟩, ⟨.u2, .qmul, .b2, .w2⟩,
   ⟨.y, .qadd, .s1, .u2⟩]

/-- The value of a primitive operation (R68, R69, R71). -/
def Prim.eval (c : Config) : Prim → Word → Word → Word
  | .qmul => Sys2Proof.Machine.qmul c
  | .qsub => Sys2Proof.Machine.qsub c
  | .qadd => Sys2Proof.Machine.qadd c

/-- Run lines of R97 in order over named words. -/
def runLaneProgram (c : Config) : List LaneOp → (LaneReg → Word) → (LaneReg → Word)
  | [], env => env
  | o :: os, env => runLaneProgram c os (fun r => if r = o.dst then o.prim.eval c (env o.l) (env o.r) else env r)

/-- The words on entry to a lane; the intermediate words hold nothing yet and no line reads one before it is set. -/
def laneInputs (k : Coefs) (w1 w2 x : Word) : LaneReg → Word
  | .b0 => k.b0
  | .b1 => k.b1
  | .b2 => k.b2
  | .a1 => k.a1
  | .a2 => k.a2
  | .w1 => w1
  | .w2 => w2
  | .x => x
  | _ => 0

/-- How many operations of kind `p` one lane of one stage step performs (R103). -/
def lanePrimCount (p : Prim) : Nat := laneProgram.countP (fun o => o.prim = p)

end Sys2Proof.Machine
end

