-- ==== Sys2Proof/Machine/Cascade.lean ====
section
/-!
DEFINITION. Machine/Cascade.lean: the inside of an EXEC: the cascade, zero stuffing and the output gain (R111 to R113,
R122 to R124).
-/

namespace Sys2Proof.Machine

/-- `cascade_pass(v)` over sections `0 .. n-1` (R111): stage `s + 1` receives stage `s`'s output of the same pass. -/
def cascadePass (c : Config) (coef : Memory) (v : Cplx) (dly : Memory) : Nat → Cplx × Memory
  | 0 => (v, dly)
  | n + 1 => sosStep c coef n (cascadePass c coef v dly n).1 (cascadePass c coef v dly n).2

/-- Passes over a list of virtual samples, in order; the raw outputs and the delay memory after the last (R107). -/
def runPasses (c : Config) (coef : Memory) (ns : Nat) : List Cplx → Memory → List Cplx × Memory
  | [], dly => ([], dly)
  | v :: vs, dly =>
    let first := cascadePass c coef v dly ns
    let later := runPasses c coef ns vs first.2
    (first.1 :: later.1, later.2)

/-- The `k` virtual samples of one call: position 0 the input, the others zero (R112). -/
def virtualSamples (x : Cplx) : Nat → List Cplx
  | 0 => []
  | k + 1 => x :: List.replicate k czero

/-- The zero-stuffed sequence of several calls (R116). -/
def zeroStuff (k : Nat) (xs : List Cplx) : List Cplx := xs.flatMap (fun x => virtualSamples x k)

/-- `OUT[p] = cscale(G, RAW[p])` (R113). -/
def outputGain (c : Config) (g : Word) (raw : List Cplx) : List Cplx := raw.map (cscale c g)

end Sys2Proof.Machine
end

