-- ==== Sys2Proof/Machine/Commands.lean ====
section
/-!
DEFINITION. Machine/Commands.lean: the meanings of BUILD, EXEC, RESET, DESTROY (R106 to R109) and of an illegal header
(R110). A meaning runs the command whose frame the decoder has consumed.
-/

namespace Sys2Proof.Machine

/-- The state a successful BUILD leaves, before its response (R25, R106). -/
def buildState (ns : BitVec 8) (k : BitVec 16) (payload : List Word) (s : State) : State :=
  { s with
    NS := ns
    K := k
    G := qFromInt s.cfg k.toNat
    COEF := memWriteBlock s.COEF (coefAddr 0 0) (coefficientOperands s.cfg payload)
    DLY := clearDelays s.DLY ns.toNat
    LIFE := .CREATED }

/-- BUILD (R106). -/
def execBuild (ns : BitVec 8) (k : BitVec 16) (payload : List Word) (s : State) :
    Host.Outcome State Fault Refusal :=
  if payload.length = 5 * ns.toNat then
    match buildCheck s.cfg ns k s.LIFE with
    | some e => .next (raiseError Op.BUILD.code e s)
    | none => .next (respond Op.BUILD.code .OK [] (buildState ns k payload s))
  else .refused .malformedFrame

/-- The raw outputs and the delay memory of the `K` passes of an EXEC on sample `x` (R107, R111, R112). -/
def execPasses (x : Cplx) (s : State) : List Cplx × Memory :=
  runPasses s.cfg s.COEF s.NS.toNat (virtualSamples x s.K.toNat) s.DLY

/-- The payload of a successful EXEC's response: the scaled outputs (R52, R113). -/
def execPayload (x : Cplx) (s : State) : List Word :=
  outWords (outputGain s.cfg s.G (execPasses x s).1)

/-- EXEC (R107). -/
def execExec (re im : Word) (s : State) : Host.Outcome State Fault Refusal :=
  match execCheck s.LIFE s.NS with
  | some e => .next (raiseError Op.EXEC.code e s)
  | none =>
    if s.NS.toNat > s.cfg.NS_MAX then .fault .noSuchAddress
    else .next (respond Op.EXEC.code .OK (execPayload (sampleOperand s.cfg re im) s)
      { s with DLY := (execPasses (sampleOperand s.cfg re im) s).2, LIFE := .EXECUTING })

/-- RESET (R108). -/
def execReset (s : State) : Host.Outcome State Fault Refusal :=
  match handleCheck s.LIFE with
  | some e => .next (raiseError Op.RESET.code e s)
  | none =>
    if s.NS.toNat > s.cfg.NS_MAX then .fault .noSuchAddress
    else .next (respond Op.RESET.code .OK [] { s with DLY := clearDelays s.DLY s.NS.toNat, LIFE := .EXECUTING })

/-- DESTROY (R109); `NS`, `K`, `G`, `COEF`, `DLY` become unspecified (R27). -/
def execDestroy (s : State) : Host.Outcome State Fault Refusal :=
  match handleCheck s.LIFE with
  | some e => .next (raiseError Op.DESTROY.code e s)
  | none => .next (respond Op.DESTROY.code .OK [] { releaseStorage s with LIFE := .DESTROYED })

/-- The header `h` that matches no command (R55, R110): the response `ILLEGAL_CMD` with `h`'s opcode byte. -/
def execIllegal (h : Word) (s : State) : State := raiseError (opcField h) .ILLEGAL_CMD s

end Sys2Proof.Machine
end

