-- ==== Sys2Proof/Machine/Step.lean ====
section
/-!
DEFINITION. Machine/Step.lean: one step of the block (R5, R57, R105, R150, R155).
-/

namespace Sys2Proof.Machine

/-- One step. With `rst` at 1 it is a hardware reset (R150). Otherwise, while a response is not yet accepted into the
response channel, the engine holds (R155, U11); else the decoder looks at the command stream: a whole frame is consumed
and run to completion (R57, R105), an illegal header is consumed and answered (R55, R110), and when no frame is complete
the block waits with all state retained (R142, R161). -/
def step (s : State) : Host.Outcome State Fault Refusal :=
  if s.rst then .next (hardwareReset s)
  else if s.stalled then .next s
  else
    match decode s.cmd with
    | .frame i rest => exec i { s with cmd := rest }
    | .illegal h rest => .next (execIllegal h { s with cmd := rest })
    | .incomplete => .next s

/-- `s` with the frame of the opcode table's bits `w` as its whole command stream, no response pending and `rst` at 0,
so that the next step consumes and runs exactly that frame (notes/assumptions/6.md). -/
def State.withFetchWord (s : State) (nbits w : Nat) : State :=
  { s with cmd := tableWords nbits w, rsp := [], rst := false }

end Sys2Proof.Machine
end

