-- ==== Sys2Proof/Machine/Sequencer.lean ====
section
/-!
DEFINITION. Machine/Sequencer.lean: the inside of an EXEC one stage step at a time: the hidden sequencer `SEQ` and the
other transient values of an EXEC in progress (R17, R19, R20, R122). Between commands they are dead, so they are no
part of `State` (R10); EXEC itself is one atomic step (R38, R115).
-/

namespace Sys2Proof.Machine

/-- An EXEC in progress: `SEQ = (p, s)` (R19), the input latch `X` and the link `V` (R20), the delay memory, and the
raw outputs of the passes done (R107). -/
structure Seq where
  p : Nat
  s : Nat
  X : Cplx
  V : Cplx
  DLY : Memory
  RAW : List Cplx
deriving DecidableEq, Repr

/-- The virtual sample of pass `p` (R112). -/
def passInput (x : Cplx) (p : Nat) : Cplx := if p = 0 then x else czero

/-- The sequencer before the first stage step of an EXEC (R19, R107). -/
def seqStart (x : Cplx) (dly : Memory) : Seq := ⟨0, 0, x, passInput x 0, dly, []⟩

/-- The sequencer after a stage step at `SEQ = (p, s)` with result `r`; after the last stage of a pass the raw output
is kept and the next pass starts with its virtual sample (R19, R107, R122). -/
def seqAdvance (ns : Nat) (r : Cplx × Memory) (q : Seq) : Seq :=
  if q.s + 1 < ns then { q with s := q.s + 1, V := r.1, DLY := r.2 }
  else { q with p := q.p + 1, s := 0, V := passInput q.X (q.p + 1), DLY := r.2, RAW := q.RAW ++ [r.1] }

/-- One stage step, at `SEQ = (p, s)` (R19, R122). -/
def seqStep (c : Config) (coef : Memory) (ns : Nat) (q : Seq) : Seq :=
  seqAdvance ns (sosStep c coef q.s q.V q.DLY) q

/-- `n` stage steps. -/
def seqRun (c : Config) (coef : Memory) (ns : Nat) : Nat → Seq → Seq
  | 0, q => q
  | n + 1, q => seqRun c coef ns n (seqStep c coef ns q)

end Sys2Proof.Machine
end

