-- ==== Sys2Proof/Machine/Cost.lean ====
section
/-!
DEFINITION. Machine/Cost.lean: an EXEC walked stage step by stage step with every scalar operation counted where it is
performed (R103, R160). The counts are information and no timing (R159).
-/

namespace Sys2Proof.Machine

/-- How many scalar operations of each kind have been performed (R160). -/
structure OpCount where
  qmul : Nat
  qsub : Nat
  qadd : Nat
deriving DecidableEq, Repr

/-- One more operation of the given kind. -/
def OpCount.tick (n : OpCount) : Prim → OpCount
  | .qmul => { n with qmul := n.qmul + 1 }
  | .qsub => { n with qsub := n.qsub + 1 }
  | .qadd => { n with qadd := n.qadd + 1 }

/-- Run lines of R97 in order over named words, one tick a line. -/
def countedLaneProgram (c : Config) : List LaneOp → (LaneReg → Word) → OpCount → (LaneReg → Word) × OpCount
  | [], env, n => (env, n)
  | o :: os, env, n =>
    countedLaneProgram c os (fun r => if r = o.dst then o.prim.eval c (env o.l) (env o.r) else env r) (n.tick o.prim)

/-- One lane of a stage step (R97): `y`, `w1' = w0`, `w2' = w1` as R97's nine lines leave them. -/
def countedLane (c : Config) (k : Coefs) (w1 w2 x : Word) (n : OpCount) : LaneResult × OpCount :=
  let r := countedLaneProgram c laneProgram (laneInputs k w1 w2 x) n
  (⟨r.1 .y, r.1 .w0, r.1 .w1⟩, r.2)

/-- A stage step (R98): the `re` lane, then the `im` lane. -/
def countedSosStep (c : Config) (coef : Memory) (s : Nat) (v : Cplx) (dly : Memory) (n : OpCount) :
    (Cplx × Memory) × OpCount :=
  let k := coefsOf coef s
  let w1 := cplxRead dly (w1Addr s)
  let w2 := cplxRead dly (w2Addr s)
  let re := countedLane c k w1.re w2.re v.re n
  let im := countedLane c k w1.im w2.im v.im re.2
  ((⟨re.1.y, im.1.y⟩, cplxWrite (cplxWrite dly (w1Addr s) ⟨re.1.w1, im.1.w1⟩) (w2Addr s) ⟨re.1.w2, im.1.w2⟩), im.2)

/-- One stage step at `SEQ = (p, s)` (R19, R107, R122). -/
def countedSeqStep (c : Config) (coef : Memory) (ns : Nat) (q : Seq × OpCount) : Seq × OpCount :=
  let r := countedSosStep c coef q.1.s q.1.V q.1.DLY q.2
  (seqAdvance ns r.1 q.1, r.2)

/-- `n` stage steps. -/
def countedSeqRun (c : Config) (coef : Memory) (ns : Nat) : Nat → Seq × OpCount → Seq × OpCount
  | 0, q => q
  | n + 1, q => countedSeqRun c coef ns n (countedSeqStep c coef ns q)

/-- `cscale` (R88): one `qmul` per lane. -/
def countedScale (c : Config) (g : Word) (z : Cplx) (n : OpCount) : Cplx × OpCount :=
  (⟨Prim.qmul.eval c g z.re, Prim.qmul.eval c g z.im⟩, (n.tick .qmul).tick .qmul)

/-- The output gain over a burst (R113). -/
def countedGain (c : Config) (g : Word) : List Cplx → OpCount → List Cplx × OpCount
  | [], n => ([], n)
  | z :: zs, n =>
    let first := countedScale c g z n
    let later := countedGain c g zs first.2
    (first.1 :: later.1, later.2)

/-- An EXEC on sample `x` (R107): `K * NS` stage steps from `SEQ = (0, 0)`, then the gain: the response payload, the
delay memory, and the operations performed. -/
def countedExec (x : Cplx) (s : State) : (List Word × Memory) × OpCount :=
  let q := countedSeqRun s.cfg s.COEF s.NS.toNat (s.K.toNat * s.NS.toNat) (seqStart x s.DLY, ⟨0, 0, 0⟩)
  let g := countedGain s.cfg s.G q.1.RAW q.2
  ((outWords g.1, q.1.DLY), g.2)

end Sys2Proof.Machine
end

