-- ==== Sys2Proof/Machine/Conversions.lean ====
section
/-!
DEFINITION. Machine/Conversions.lean: the conversions between real numbers and words and the host's duty at the
coefficient boundary (R79 to R82, R140, R152). They run on the host; they define what a word means.
-/

namespace Sys2Proof.Machine

/-- A number the host converts: a finite one (every finite floating-point number is rational), an infinity, or a
not-a-number (R80). -/
inductive HostReal where
  | finite (r : Rat)
  | posInf
  | negInf
  | nan
deriving DecidableEq, Repr

/-- `q_to_real(n) = n / 2^F`, exact (R66, R79). -/
def qToReal (c : Config) (w : Word) : Rat := (val c w : Rat) / 2 ^ c.F

/-- `floor(r * 2^F + 1/2)`: nearest, ties toward plus infinity (R80). -/
def roundReal (c : Config) (r : Rat) : Int := (r * 2 ^ c.F + 1 / 2).floor

/-- `q_from_real(r)` (R80); a not-a-number has no conversion. -/
def qFromReal (c : Config) : HostReal → Option Word
  | .finite r => some (sat c (roundReal c r))
  | .posInf => some (wordOf (MAXV c))
  | .negInf => some (wordOf (MINV c))
  | .nan => none

/-- `q_overflows(r)` (R80). An infinity is past every bound (notes/assumptions/11.md); a not-a-number has no value
that overflows. -/
def qOverflows (c : Config) : HostReal → Bool
  | .finite r => decide (roundReal c r > MAXV c) || decide (roundReal c r < MINV c)
  | .posInf => true
  | .negInf => true
  | .nan => false

/-- The word the host sends for a coefficient, or none: it reports DesignError and sends no BUILD (R81, R140). -/
def quantiseCoefficient (c : Config) (r : HostReal) : Option Word :=
  if qOverflows c r then none else qFromReal c r

/-- One section as the host designed it: `b0 b1 b2 a1 a2` (R95). -/
structure RealSection where
  b0 : HostReal
  b1 : HostReal
  b2 : HostReal
  a1 : HostReal
  a2 : HostReal
deriving DecidableEq, Repr

/-- The coefficients in BUILD payload order (R47). -/
def RealSection.coefficients (s : RealSection) : List HostReal := [s.b0, s.b1, s.b2, s.a1, s.a2]

/-- Quantise every coefficient, or none as soon as one fails (R81, R152). -/
def quantiseAll (c : Config) : List HostReal → Option (List Word)
  | [] => some []
  | r :: rs =>
    match quantiseCoefficient c r, quantiseAll c rs with
    | some w, some ws => some (w :: ws)
    | _, _ => none

/-- The BUILD frame a host that follows R152 (2) to (5) sends, or none when it abandons the build. -/
def hostBuildFrame (c : Config) (k : Nat) (sections : List RealSection) : Option (List Word) :=
  if sections.length = 0 ∨ sections.length > c.NS_MAX ∨ k < 2 ∨ k > K_MAX c then none
  else
    match quantiseAll c (sections.flatMap RealSection.coefficients) with
    | some payload => some (encode (.build (BitVec.ofNat 8 sections.length) (BitVec.ofNat 16 k) payload))
    | none => none

end Sys2Proof.Machine
end

