-- ==== Sys2Proof/Machine/Exact.lean ====
section
/-!
DEFINITION. Machine/Exact.lean: what the coefficients of a section mean: the stage in exact arithmetic, whose transfer
function R95 gives, and when a stage step of the hardware agrees with it.
-/

namespace Sys2Proof.Machine

/-- The real values of a section's coefficients (R95). -/
structure RealCoefs where
  b0 : Rat
  b1 : Rat
  b2 : Rat
  a1 : Rat
  a2 : Rat
deriving DecidableEq, Repr

/-- Each coefficient word stands for its real value (R79, R95). -/
def realCoefs (c : Config) (k : Coefs) : RealCoefs :=
  ⟨qToReal c k.b0, qToReal c k.b1, qToReal c k.b2, qToReal c k.a1, qToReal c k.a2⟩

/-- The output and the two delay values of one lane in exact arithmetic. -/
structure RealLane where
  y : Rat
  w1 : Rat
  w2 : Rat
deriving DecidableEq, Repr

/-- `sos_lane` in exact arithmetic: `w0 = x - a1*w1 - a2*w2`, `y = b0*w0 + b1*w1 + b2*w2` (R95, R97). -/
def exactLane (k : RealCoefs) (w1 w2 x : Rat) : RealLane :=
  let w0 := x - k.a1 * w1 - k.a2 * w2
  ⟨k.b0 * w0 + k.b1 * w1 + k.b2 * w2, w0, w1⟩

/-- The lane after `n` stage steps on the inputs `xs 0 .. xs (n-1)`, from rest (R95, R96). -/
def exactRun (k : RealCoefs) (xs : Nat → Rat) : Nat → RealLane
  | 0 => ⟨0, 0, 0⟩
  | n + 1 => exactLane k (exactRun k xs n).w1 (exactRun k xs n).w2 (xs n)

/-- No one of the nine operations of a stage step rounds or clamps (R97, R99). -/
structure TraceIsExact (c : Config) (k : Coefs) (w1 w2 x : Word) (t : LaneTrace) : Prop where
  t1 : qToReal c t.t1 = qToReal c k.a1 * qToReal c w1
  a : qToReal c t.a = qToReal c x - qToReal c t.t1
  t2 : qToReal c t.t2 = qToReal c k.a2 * qToReal c w2
  w0 : qToReal c t.w0 = qToReal c t.a - qToReal c t.t2
  u0 : qToReal c t.u0 = qToReal c k.b0 * qToReal c t.w0
  u1 : qToReal c t.u1 = qToReal c k.b1 * qToReal c w1
  s1 : qToReal c t.s1 = qToReal c t.u0 + qToReal c t.u1
  u2 : qToReal c t.u2 = qToReal c k.b2 * qToReal c w2
  y : qToReal c t.y = qToReal c t.s1 + qToReal c t.u2

end Sys2Proof.Machine
end

