-- ==== Sys2Proof/Machine/Ports.lean ====
section
/-!
DEFINITION. Machine/Ports.lean: what the host can do to the block: the ports of R60, one edge of `clk` at a time, and
how the host reads the response stream (R51, R125).
-/

namespace Sys2Proof.Machine

/-- The input ports at one rising edge of `clk` (R60). -/
structure PortIn where
  rst : Bool
  cmdValid : Bool
  cmdData : Word
  rspReady : Bool
deriving DecidableEq, Repr

/-- The output ports (R60). `rspData` is `none` while `rsp_valid` is 0: the spec gives the port no value then. -/
structure PortOut where
  cmdReady : Bool
  rspValid : Bool
  rspData : Option Word
deriving DecidableEq, Repr

/-- A command runs or waits to run: the accepted words begin with a whole frame or an illegal header (R57). -/
def State.commandPending (s : State) : Bool :=
  match decode s.cmd with
  | .frame _ _ => true
  | .illegal _ _ => true
  | .incomplete => false

/-- The block is idle: no command runs and no response word is undelivered (R60, R142, R150). A frame that is not yet
complete leaves it idle: it waits for the frame's next word. -/
def State.idle (s : State) : Bool := !s.commandPending && s.rsp.isEmpty

/-- The output ports. `cmd_ready` is 1 while the block is idle (R142, R150); while a command runs or a response is
undelivered it is the implementation's choice `ready` (R60), but 0 once the input buffer is full (R155). Both outputs
are 0 while `rst` is 1 (R150). -/
def portOut (i : PortIn) (ready : Bool) (s : State) : PortOut where
  cmdReady := !i.rst && (s.idle || (ready && decide (s.cmd.length < s.cfg.cmdBuf)))
  rspValid := !i.rst && !s.rsp.isEmpty
  rspData := if i.rst then none else s.rsp.head?

/-- The stream effect of one rising edge of `clk` (R60): with `rst` 1 a hardware reset (R150); otherwise on each
channel one word moves if both its handshake signals are 1. -/
def portEdge (i : PortIn) (ready : Bool) (s : State) : State :=
  if i.rst then { hardwareReset s with rst := true }
  else
    { s with
      rst := false
      cmd := if i.cmdValid && (portOut i ready s).cmdReady then s.cmd ++ [i.cmdData] else s.cmd
      rsp := if (portOut i ready s).rspValid && i.rspReady then s.rsp.tail else s.rsp }

/-- A state the block can be in: from a hardware reset of some block, by steps of the engine and edges of the clock,
in any order (R5, R60, R150). -/
inductive Reachable : State → Prop where
  | start (c : Config) : Reachable (State.resetOf c)
  | engine {s t : State} : Reachable s → step s = .next t → Reachable t
  | edge {s : State} (i : PortIn) (ready : Bool) : Reachable s → Reachable (portEdge i ready s)

/-- A response frame as the host reads it: the three header fields' worth (R51). -/
structure RspFrame where
  opc : BitVec 8
  status : BitVec 8
  payload : List Word
deriving DecidableEq, Repr

/-- The header fields of a response (R51). -/
def rspCount (h : Word) : Nat := (h.extractLsb' 0 16).toNat

/-- Read one response frame off the response stream; none while it is incomplete (R51). -/
def takeResponse : List Word → Option (RspFrame × List Word)
  | [] => none
  | h :: tl =>
    if tl.length < rspCount h then none
    else some (⟨h.extractLsb' 24 8, h.extractLsb' 16 8, tl.take (rspCount h)⟩, tl.drop (rspCount h))

/-- At most `n` response frames off the stream, in order: what a claim may observe of a run (R125). -/
def takeResponses : Nat → List Word → List RspFrame
  | 0, _ => []
  | n + 1, ws =>
    match takeResponse ws with
    | none => []
    | some (f, rest) => f :: takeResponses n rest

end Sys2Proof.Machine
end

