-- ==== Sys2Proof/Machine/Link.lean ====
section
/-!
DEFINITION. Machine/Link.lean: the block together with its host over time: a host that keeps taking response words
(R125), and the two handshakes in any order and at any pace (R60, R155, R161).
-/

namespace Sys2Proof.Machine

/-- `n` steps with a host that takes every response word before each step and after the last one (R125): the last state
and the words taken, oldest first; none if a step stops. -/
def hostRun : Nat → State → Option (State × List Word)
  | 0, s => some ({ s with rsp := [] }, s.rsp)
  | n + 1, s =>
    match step { s with rsp := [] } with
    | .next t => (hostRun n t).map (fun r => (r.1, s.rsp ++ r.2))
    | .fault _ => none
    | .refused _ => none

/-- The block, the command words the host has still to send, and the response words it has taken, oldest first. -/
structure Link where
  block : State
  toSend : List Word
  taken : List Word
deriving DecidableEq, Repr

/-- What happens next: a step of the engine, or a rising edge of `clk` with `rst` at 0. At an edge `offer` is the
host's `cmd_valid` (no word is offered when none is left), `accept` its `rsp_ready`, `ready` the implementation's
choice in `cmd_ready`. -/
inductive Event where
  | engine
  | edge (offer accept ready : Bool)
deriving DecidableEq, Repr

/-- The host's side of the ports at an edge (R60). -/
def Link.portIn (l : Link) (offer accept : Bool) : PortIn :=
  ⟨false, offer && !l.toSend.isEmpty, l.toSend.headD 0, accept⟩

/-- One event. A step that stops leaves the link as it is; under the invariant no step stops (R125, R135). -/
def Link.next (l : Link) : Event → Link
  | .engine =>
    match step l.block with
    | .next t => { l with block := t }
    | .fault _ => l
    | .refused _ => l
  | .edge offer accept ready =>
    { block := portEdge (l.portIn offer accept) ready l.block
      toSend := if offer && (portOut (l.portIn offer accept) ready l.block).cmdReady then l.toSend.tail else l.toSend
      taken := if accept then l.taken ++ (portOut (l.portIn offer accept) ready l.block).rspData.toList else l.taken }

/-- The link after the first `n` events of a schedule. -/
def Link.run (l : Link) (schedule : Nat → Event) : Nat → Link
  | 0 => l
  | n + 1 => (l.run schedule n).next (schedule n)

/-- The fairness R161 asks for: the host offers its words again and again and accepts response words again and again,
and the engine keeps running. Of the implementation's `ready` nothing is asked. -/
structure Fair (schedule : Nat → Event) : Prop where
  engine : ∀ n, ∃ m, n ≤ m ∧ schedule m = .engine
  offers : ∀ n, ∃ m, n ≤ m ∧ ∃ accept ready, schedule m = .edge true accept ready
  accepts : ∀ n, ∃ m, n ≤ m ∧ ∃ offer ready, schedule m = .edge offer true ready

end Sys2Proof.Machine
end

