-- ==== Sys2Proof/Machine/Listing.lean ====
section
/-!
DEFINITION. Machine/Listing.lean: command listings (R58, R59) as abstract lines, and the frame each line assembles to.
The characters of a listing are not modelled.
-/

namespace Sys2Proof.Machine

/-- A word operand: a raw hexadecimal word, or a decimal real literal (R58). -/
inductive Literal where
  | raw (w : Word)
  | real (r : Rat)
deriving DecidableEq, Repr

/-- One bracket group `[b0 b1 b2 a1 a2]` (R58). -/
structure BracketGroup where
  b0 : Literal
  b1 : Literal
  b2 : Literal
  a1 : Literal
  a2 : Literal
deriving DecidableEq, Repr

/-- One line of a listing: one frame, no pseudo-commands (R58, R59). -/
inductive Line where
  | build (k : Nat) (ns : Option Nat) (groups : List BracketGroup)
  | exec (re im : Literal)
  | reset
  | destroy
  | word (w : Word)
deriving DecidableEq, Repr

/-- The word an operand stands for; none: the literal's conversion overflows, so it is illegal in a listing (R58). -/
def assembleLiteral (c : Config) : Literal → Option Word
  | .raw w => some w
  | .real r => quantiseCoefficient c (.finite r)

/-- The words of operands in order, or none if one is illegal. -/
def assembleLiterals (c : Config) : List Literal → Option (List Word)
  | [] => some []
  | l :: ls =>
    match assembleLiteral c l, assembleLiterals c ls with
    | some w, some ws => some (w :: ws)
    | _, _ => none

/-- The operands of a bracket group in payload order (R47). -/
def BracketGroup.literals (g : BracketGroup) : List Literal := [g.b0, g.b1, g.b2, g.a1, g.a2]

/-- The channel words of one line (R58). `ns=` stands in the header as written, and is the number of bracket groups
when omitted; exactly the groups given are emitted, so a malformed frame can be written down. -/
def assembleLine (c : Config) : Line → Option (List Word)
  | .build k ns groups =>
    if k < 2 ^ 16 ∧ ns.getD groups.length < 2 ^ 8 then
      (assembleLiterals c (groups.flatMap BracketGroup.literals)).map
        (fun payload =>
          headerWord Op.BUILD.code (BitVec.ofNat 8 (ns.getD groups.length)) (BitVec.ofNat 16 k) :: payload)
    else none
  | .exec re im => (assembleLiterals c [re, im]).map (fun ws => headerWord Op.EXEC.code 0 0 :: ws)
  | .reset => some [headerWord Op.RESET.code 0 0]
  | .destroy => some [headerWord Op.DESTROY.code 0 0]
  | .word w => some [w]

/-- The name of a status code in a listing (R58, R131). -/
def Status.name : Status → String
  | .OK => "OK"
  | .BUILD_ERR_K => "BUILD_ERR_K"
  | .BUILD_ERR_EMPTY => "BUILD_ERR_EMPTY"
  | .BUILD_ERR_K_RANGE => "BUILD_ERR_K_RANGE"
  | .BUILD_ERR_NS_RANGE => "BUILD_ERR_NS_RANGE"
  | .BUILD_ERR_LIVE => "BUILD_ERR_LIVE"
  | .USAGE_ERR_HANDLE => "USAGE_ERR_HANDLE"
  | .USAGE_ERR_EMPTY => "USAGE_ERR_EMPTY"
  | .ILLEGAL_CMD => "ILLEGAL_CMD"

end Sys2Proof.Machine
end

