-- ==== Sys2Proof/Safety.lean ====
section
/-!
DEFINITION. Safety.lean: what the claims call a good state: the invariants of R22, and what a command may depend on
(R23).
-/

namespace Sys2Proof.Machine

/-- R22 (b): what holds of the control registers while the cascade is live. -/
structure LiveOk (s : State) : Prop where
  sections_pos : 1 ≤ s.NS.toNat
  sections_fit : s.NS.toNat ≤ s.cfg.NS_MAX
  factor_min : 2 ≤ s.K.toNat
  factor_fits : s.K.toNat ≤ K_MAX s.cfg
  gain : s.G = qFromInt s.cfg s.K.toNat

/-- R22: (a) every stored word is a `W`-bit word and each space has its words (R30); (b) `LiveOk` when live. -/
structure Inv (s : State) : Prop where
  coef : Memory.wf s.cfg (5 * s.cfg.NS_MAX) s.COEF
  dly : Memory.wf s.cfg (4 * s.cfg.NS_MAX) s.DLY
  gainWord : IsWord s.cfg s.G
  live : s.LIFE.live = true → LiveOk s

/-- Two states no command can tell apart (R23): the same parameters, `LIFE`, streams and `rst` level, and, when live,
the same `NS`, `K`, `G` and the same words of the sections in use. Everything else is unspecified storage. -/
structure SameUsed (s t : State) : Prop where
  cfg : s.cfg = t.cfg
  life : s.LIFE = t.LIFE
  cmd : s.cmd = t.cmd
  rsp : s.rsp = t.rsp
  rst : s.rst = t.rst
  ns : s.LIFE.live = true → s.NS = t.NS
  k : s.LIFE.live = true → s.K = t.K
  g : s.LIFE.live = true → s.G = t.G
  coef : s.LIFE.live = true → ∀ a < coefUsed s.NS, memRead s.COEF a = memRead t.COEF a
  dly : s.LIFE.live = true → ∀ a < dlyUsed s.NS, memRead s.DLY a = memRead t.DLY a

/-- The used delay registers are all zero (R22 (c), R26). -/
def AtRest (s : State) : Prop := ∀ a < dlyUsed s.NS, memRead s.DLY a = 0

/-- The command words of a run of EXECs on the samples `xs`, in order (R48, R59). -/
def execFrames (xs : List (Word × Word)) : List Word := xs.flatMap (fun x => encode (.exec x.1 x.2))

/-- The input samples of such a run, as EXEC reads its operands (R61). -/
def samplesOf (c : Config) (xs : List (Word × Word)) : List Cplx := xs.map (fun x => sampleOperand c x.1 x.2)

/-- The opcode row of a command (R46). -/
def opOf : Instr → Op
  | .build _ _ _ => .BUILD
  | .exec _ _ => .EXEC
  | .reset => .RESET
  | .destroy => .DESTROY

/-- The lanes' delay words of sections `0 .. n-1` agree in the two memories: `lane = 0` the `re` words, `lane = 1` the
`im` words (R32, R91). -/
def SameLane (lane n : Nat) (d e : Memory) : Prop :=
  ∀ s < n, memRead d (w1Addr s + lane) = memRead e (w1Addr s + lane) ∧
    memRead d (w2Addr s + lane) = memRead e (w2Addr s + lane)

/-- A step that neither faults nor refuses. -/
def Runs (s : State) : Prop := ∃ t, step s = .next t

end Sys2Proof.Machine
end

