-- ==== Sys2Proof/Certificates/Slice0/Obligations.lean ====
section
/-!
DEFINITION. Certificates/Slice0/Obligations.lean: the statements for the provers, in the order of OBLIGATIONS.json.
-/

open Sys2Proof Sys2Proof.Machine

/-! ### Encoding and decoding -/

/-- Decoding the words of a well-formed command gives it back, whatever follows in the stream (R45 to R50, R57). -/
def Obligations.DecodeOfEncodeIsTheCommand : Prop :=
  ∀ (i : Instr) (rest : List Word), WellFormed i → decode (encode i ++ rest) = .frame i rest

/-- A decoded command is well formed and its encoding is exactly the words consumed: no word has two meanings (R54). -/
def Obligations.EncodeOfDecodeIsTheStream : Prop :=
  ∀ (ws rest : List Word) (i : Instr), decode ws = .frame i rest → WellFormed i ∧ encode i ++ rest = ws

/-- R54: a header selects the one row it matches; the rows are disjoint; each row's fields and payload words. -/
def Obligations.HeaderSelectsTheOneMatchingRow : Prop :=
  ∀ h : Word,
    (selectRow h = some .BUILD ↔ h &&& 0xFF000000 = 0x01000000) ∧
    (selectRow h = some .EXEC ↔ h &&& 0xFFFFFFFF = 0x02000000) ∧
    (selectRow h = some .RESET ↔ h &&& 0xFFFFFFFF = 0x03000000) ∧
    (selectRow h = some .DESTROY ↔ h &&& 0xFFFFFFFF = 0x04000000) ∧
    (opcodeMap.countP (fun r => h &&& r.mask == r.pat) ≤ 1) ∧
    (∀ payload rest, payload.length = 5 * (h.extractLsb' 16 8).toNat → h &&& 0xFF000000 = 0x01000000 →
      decode (h :: payload ++ rest) = .frame (.build (h.extractLsb' 16 8) (h.extractLsb' 0 16) payload) rest) ∧
    (∀ re im rest, h = 0x02000000 → decode (h :: re :: im :: rest) = .frame (.exec re im) rest) ∧
    (∀ rest, h = 0x03000000 → decode (h :: rest) = .frame .reset rest) ∧
    (∀ rest, h = 0x04000000 → decode (h :: rest) = .frame .destroy rest)

/-- R45: the frame length is a function of the header alone, and the decoder consumes the whole frame or waits; a BUILD
whose `NS` field exceeds `NS_MAX` consumes its payload and is then answered with an error (once earlier responses are
accepted, R155). -/
def Obligations.FrameLengthIsFixedByTheHeader : Prop :=
  (∀ (h : Word) (tl : List Word),
    frameLength h =
      (if h &&& 0xFF000000 = 0x01000000 then 1 + 5 * (h.extractLsb' 16 8).toNat
       else if h = 0x02000000 then 3 else 1) ∧
    (tl.length + 1 < frameLength h → decode (h :: tl) = .incomplete) ∧
    (frameLength h ≤ tl.length + 1 →
      decode (h :: tl) = .illegal h (tl.drop (frameLength h - 1)) ∨
      ∃ i, decode (h :: tl) = .frame i (tl.drop (frameLength h - 1)))) ∧
  (∀ (s : State) (h : Word) (payload rest : List Word), s.rst = false → s.stalled = false →
    s.cmd = h :: payload ++ rest → h &&& 0xFF000000 = 0x01000000 → payload.length = 5 * (h.extractLsb' 16 8).toNat →
    s.cfg.NS_MAX < (h.extractLsb' 16 8).toNat →
    ∃ e : Status, e ≠ .OK ∧
      step s = .next { s with cmd := rest, rsp := s.rsp ++ [0x01#8 ++ e.code ++ 0#16] })

/-- R55, R110: the headers that are no command, and what such a header does: one word consumed, the response
`ILLEGAL_CMD` with the opcode byte echoed, nothing else changed. -/
def Obligations.IllegalHeaderChangesNothingElse : Prop :=
  (∀ h : Word, selectRow h = none ↔
    (h.extractLsb' 24 8 = 0x00#8 ∨ 0x05 ≤ (h.extractLsb' 24 8).toNat ∨
     (0x02 ≤ (h.extractLsb' 24 8).toNat ∧ (h.extractLsb' 24 8).toNat ≤ 0x04 ∧ h.extractLsb' 0 24 ≠ 0#24))) ∧
  selectRow 0x00000000 = none ∧ selectRow 0xFFFFFFFF = none ∧
  (∀ (s : State) (h : Word) (rest : List Word), s.rst = false → s.stalled = false → s.cmd = h :: rest →
    selectRow h = none → step s = .next { s with cmd := rest, rsp := s.rsp ++ [h.extractLsb' 24 8 ++ 0x40#8 ++ 0x0000#16] })

/-- Words written out from the encodings of R46 to R50 decode to the commands they stand for. -/
def Obligations.WrittenOutWordsDecode : Prop :=
  decode [0x01010002, 0x00800000, 0x00800000, 0x00000000, 0xFF800000, 0x00000000] =
    .frame (.build 1 2 [0x00800000, 0x00800000, 0x00000000, 0xFF800000, 0x00000000]) [] ∧
  decode [0x02000000, 0x01000000, 0xFFC00000] = .frame (.exec 0x01000000 0xFFC00000) [] ∧
  decode [0x03000000] = .frame .reset [] ∧ decode [0x04000000] = .frame .destroy [] ∧
  decode [0x02000001] = .illegal 0x02000001 [] ∧ decode [0x03800000] = .illegal 0x03800000 []

/-- R35: a channel word is four bytes, least significant first, words in frame order; the byte stream gives the words
back, and `0x01010002` is the bytes `02 00 01 01`. -/
def Obligations.ByteTransportIsLittleEndian : Prop :=
  (∀ ws : List Word, wordsOfBytes (bytesOfWords ws) = ws ∧ decodeBytes (bytesOfWords ws) = decode ws) ∧
  (∀ (b0 b1 b2 b3 : Byte) (rest : List Byte), wordsOfBytes (b0 :: b1 :: b2 :: b3 :: rest) =
    BitVec.ofNat 32 (b0.toNat + 2 ^ 8 * b1.toNat + 2 ^ 16 * b2.toNat + 2 ^ 24 * b3.toNat) :: wordsOfBytes rest) ∧
  bytesOfWord 0x01010002 = [0x02, 0x00, 0x01, 0x01]

/-- A step with `rst` at 0 holds while the last response is not accepted (R155); else it runs the command at the head of
the stream, answers an illegal header, or waits (R57, R105, R161). That holding and waiting are steps that change
nothing is the model's reading (notes/assumptions/7.md, 8.md). -/
def Obligations.StepRunsTheDecodedCommand : Prop :=
  ∀ s : State, s.rst = false →
    (s.cfg.rspBuf < s.rsp.length → step s = .next s) ∧
    (s.rsp.length ≤ s.cfg.rspBuf →
      (∀ i rest, decode s.cmd = .frame i rest → step s = exec i { s with cmd := rest }) ∧
      (∀ h rest, decode s.cmd = .illegal h rest → step s = .next (execIllegal h { s with cmd := rest })) ∧
      (decode s.cmd = .incomplete → step s = .next s))

/-- R61: bits `[31:W]` of a payload word are ignored on input and are copies of bit `W-1` on output; at `W = 32` the
container is the word. -/
def Obligations.ContainersIgnoreUpperBits : Prop :=
  ∀ (s : State), Inv s →
    (∀ re im re' im', re.setWidth s.cfg.W = re'.setWidth s.cfg.W → im.setWidth s.cfg.W = im'.setWidth s.cfg.W →
      exec (.exec re im) s = exec (.exec re' im') s) ∧
    (∀ ns k p p', p.map (fun w : Word => w.setWidth s.cfg.W) = p'.map (fun w : Word => w.setWidth s.cfg.W) →
      exec (.build ns k p) s = exec (.build ns k p') s) ∧
    (∀ re im, ∀ w ∈ execPayload (sampleOperand s.cfg re im) s, ∀ j, s.cfg.W ≤ j → j < 32 →
      w.getLsbD j = w.getLsbD (s.cfg.W - 1)) ∧
    (s.cfg.W = 32 → ∀ w : Word, container s.cfg w = w)

/-! ### Scalar and complex arithmetic -/

/-- R67: `sat` clamps to `[MINV, MAXV]`; it is monotone and idempotent; its corner cases. -/
def Obligations.SatClampsToTheWordRange : Prop :=
  ∀ c : Config,
    (∀ n : Int, val c (sat c n) =
      if n > 2 ^ (c.W - 1) - 1 then 2 ^ (c.W - 1) - 1 else if n < -2 ^ (c.W - 1) then -2 ^ (c.W - 1) else n) ∧
    (∀ m n : Int, m ≤ n → val c (sat c m) ≤ val c (sat c n)) ∧
    (∀ n : Int, sat c (val c (sat c n)) = sat c n) ∧
    val c (sat c (MAXV c)) = MAXV c ∧ val c (sat c (MAXV c + 1)) = MAXV c ∧
    val c (sat c (MINV c)) = MINV c ∧ val c (sat c (MINV c - 1)) = MINV c ∧
    sat Config.reference (0x7F000000 + 0x01000000) = 0x7FFFFFFF

/-- R68: `qadd` takes the exact sum, then clamps once. -/
def Obligations.QaddIsTheExactSumClamped : Prop :=
  ∀ c : Config,
    (∀ a b : Word, val c (qadd c a b) = max (MINV c) (min (MAXV c) (val c a + val c b))) ∧
    (∀ a : Word, IsWord c a → qadd c a 0 = a) ∧
    qadd c (wordOf (MAXV c)) (wordOf 1) = wordOf (MAXV c) ∧
    qadd c (wordOf (MINV c)) (wordOf (-1)) = wordOf (MINV c) ∧
    qadd c (wordOf (MAXV c)) (wordOf (MINV c)) = wordOf (-1) ∧
    qadd c (wordOf (MINV c)) (wordOf (MINV c)) = wordOf (MINV c) ∧
    qadd c (wordOf (MAXV c)) (wordOf (MAXV c)) = wordOf (MAXV c) ∧
    qadd c (wordOf (-1)) (wordOf 1) = wordOf 0 ∧
    qadd Config.reference 0x01000000 0x01000000 = 0x02000000 ∧
    qadd Config.reference 0x7F000000 0x01000000 = 0x7FFFFFFF

/-- R69: `qsub` takes the exact difference, then clamps once; it is not `qadd` of the clamped negation. -/
def Obligations.QsubIsTheExactDifferenceClamped : Prop :=
  ∀ c : Config,
    (∀ a b : Word, val c (qsub c a b) = max (MINV c) (min (MAXV c) (val c a - val c b))) ∧
    (∀ a : Word, qsub c a a = 0) ∧
    qsub c (wordOf 0) (wordOf (MINV c)) = wordOf (MAXV c) ∧
    qsub c (wordOf (-1)) (wordOf (MINV c)) = wordOf (MAXV c) ∧
    qadd c (wordOf (-1)) (sat c (-MINV c)) = wordOf (MAXV c - 1) ∧
    qsub c (wordOf (MINV c)) (wordOf 1) = wordOf (MINV c) ∧
    qsub c (wordOf (MAXV c)) (wordOf (-1)) = wordOf (MAXV c) ∧
    qsub c (wordOf (MAXV c)) (wordOf (MINV c)) = wordOf (MAXV c) ∧
    qsub c (wordOf (MINV c)) (wordOf (MAXV c)) = wordOf (MINV c) ∧
    qsub Config.reference 0x7F000000 0x01000000 = 0x7E000000 ∧
    qsub Config.reference 0x00000000 0x80000000 = 0x7FFFFFFF

/-- R70: the two rounding rules and their properties. -/
def Obligations.RoundingIsTheNamedRule : Prop :=
  ∀ c : Config,
    (c.RND = .HALF_UP → ∀ p : Int, 2 ^ c.F * rnd c p ≤ p + 2 ^ (c.F - 1) ∧ p + 2 ^ (c.F - 1) < 2 ^ c.F * (rnd c p + 1)) ∧
    (c.RND = .TRUNC → ∀ p : Int, 2 ^ c.F * rnd c p ≤ p ∧ p < 2 ^ c.F * (rnd c p + 1)) ∧
    (∀ p q : Int, p ≤ q → rnd c p ≤ rnd c q) ∧
    (∀ n : Int, rnd c (n * 2 ^ c.F) = n) ∧
    rnd c 0 = 0 ∧
    (c.RND = .HALF_UP → rnd c (HALF c) = 1 ∧ rnd c (-HALF c) = 0) ∧
    (c.RND = .TRUNC → rnd c (-1) = -1) ∧
    (∀ a b : Word, |val c a * val c b| ≤ 2 ^ (2 * c.W - 2))

/-- R71: the exact product, then the rounding, then the clamp, once each; the corner-case table, its words in the
reference configuration under either rounding. -/
def Obligations.QmulRoundsThenClamps : Prop :=
  (∀ (c : Config) (a b : Word),
    val c (qmul c a b) = max (MINV c) (min (MAXV c) (rnd c (val c a * val c b)))) ∧
  (∀ (c : Config) (b : Word), qmul c 0 b = 0) ∧
  (∀ (c : Config) (x : Word), IsWord c x → qmul c (wordOf (ONE c)) x = x) ∧
  (∀ (c : Config) (x : Word), qmul c (wordOf (-ONE c)) x = sat c (-val c x)) ∧
  (∀ (c : Config), qmul c (wordOf (-ONE c)) (wordOf (MINV c)) = wordOf (MAXV c)) ∧
  ([
      (0x00000001, 0x00800000, 0x00000001, 0x00000000), (0xFFFFFFFF, 0x00800000, 0x00000000, 0xFFFFFFFF),
      (0x00000003, 0x00800000, 0x00000002, 0x00000001), (0xFFFFFFFD, 0x00800000, 0xFFFFFFFF, 0xFFFFFFFE),
      (0x00000001, 0x007FFFFF, 0x00000000, 0x00000000), (0x00000001, 0x00000001, 0x00000000, 0x00000000),
      (0xFFFFFFFF, 0x00000001, 0x00000000, 0xFFFFFFFF), (0x80000000, 0x80000000, 0x7FFFFFFF, 0x7FFFFFFF),
      (0x80000000, 0x7FFFFFFF, 0x80000000, 0x80000000), (0x7FFFFFFF, 0x7FFFFFFF, 0x7FFFFFFF, 0x7FFFFFFF),
      (0x80000000, 0x01000000, 0x80000000, 0x80000000), (0x80000000, 0xFF000000, 0x7FFFFFFF, 0x7FFFFFFF),
      (0x02000000, 0x40000000, 0x7FFFFFFF, 0x7FFFFFFF), (0x02000000, 0xC0000000, 0x80000000, 0x80000000),
      (0x00B504F3, 0x00B504F3, 0x00800000, 0x007FFFFF), (0xFF4AFB0D, 0x00B504F3, 0xFF800000, 0xFF800000),
      (0x00800000, 0x00800000, 0x00400000, 0x00400000)] : List (Word × Word × Word × Word)).all (fun row =>
    qmul .reference row.1 row.2.1 == row.2.2.1 &&
    qmul { Config.reference with RND := .TRUNC } row.1 row.2.1 == row.2.2.2) = true

/-- R72, R73: multiply-accumulate and multiply-subtract clamp the product first and the sum or difference second; their
corner cases and examples. -/
def Obligations.MacAndMsuClampTwice : Prop :=
  (∀ (c : Config) (acc a b : Word),
    val c (qmac c acc a b) =
      max (MINV c) (min (MAXV c) (val c acc + max (MINV c) (min (MAXV c) (rnd c (val c a * val c b))))) ∧
    val c (qmsu c acc a b) =
      max (MINV c) (min (MAXV c) (val c acc - max (MINV c) (min (MAXV c) (rnd c (val c a * val c b)))))) ∧
  (∀ (c : Config) (acc b : Word), IsWord c acc → qmac c acc 0 b = acc ∧ qmsu c acc 0 b = acc) ∧
  (∀ (c : Config) (a b : Word), qmac c 0 a b = qmul c a b) ∧
  (∀ (c : Config), qmsu c 0 (wordOf (-ONE c)) (wordOf (MINV c)) = wordOf (MINV c + 1) ∧
    qmsu c 0 (wordOf (ONE c)) (wordOf (MINV c)) = wordOf (MAXV c)) ∧
  qmac Config.reference 0x80000000 0x80000000 0x80000000 = 0xFFFFFFFF ∧
  qmac Config.reference 0x00480000 0x00800000 0x00C00000 = 0x00A80000 ∧
  qmsu Config.reference 0x00200000 0xFF000000 0x00C00000 = 0x00E00000 ∧
  qmsu Config.reference 0 1 0x00800000 ≠ qmac Config.reference 0 (0 - 1) 0x00800000 ∧
  qmsu Config.reference 0 1 0x00800000 ≠ qmac Config.reference 0 1 (0 - 0x00800000)

/-- R74: the laws of the scalar unit, (a) to (g). -/
def Obligations.ScalarLawsHold : Prop :=
  ∀ c : Config,
    (∀ a b : Word, qadd c a b = qadd c b a ∧ qmul c a b = qmul c b a) ∧
    (qadd c (qadd c (wordOf (MAXV c)) (wordOf 1)) (wordOf (-1)) = wordOf (MAXV c - 1) ∧
      qadd c (wordOf (MAXV c)) (qadd c (wordOf 1) (wordOf (-1))) = wordOf (MAXV c)) ∧
    (∃ x y z : Word, qmul c (qmul c x y) z ≠ qmul c x (qmul c y z)) ∧
    (∃ x y z : Word, qmul c x (qadd c y z) ≠ qadd c (qmul c x y) (qmul c x z)) ∧
    (∀ a b : Word, IsWord c a → qadd c a 0 = a ∧ qsub c a 0 = a ∧ qmul c (wordOf (ONE c)) a = a ∧
      qmul c 0 a = 0 ∧ qmac c a 0 b = a) ∧
    (∀ a a' b b' : Word, val c a ≤ val c a' → val c b ≤ val c b' →
      val c (qadd c a b) ≤ val c (qadd c a' b') ∧ val c (qsub c a b) ≤ val c (qsub c a' b) ∧
      (0 ≤ val c b → val c (qmul c a b) ≤ val c (qmul c a' b))) ∧
    (∀ a b d : Word, ∀ r ∈ [qadd c a b, qsub c a b, qmul c a b, qmac c d a b, qmsu c d a b],
      IsWord c r ∧ MINV c ≤ val c r ∧ val c r ≤ MAXV c) ∧
    (∀ a b : Word,
      (MINV c ≤ val c a + val c b → val c a + val c b ≤ MAXV c → val c (qadd c a b) = val c a + val c b) ∧
      (MINV c ≤ val c a - val c b → val c a - val c b ≤ MAXV c → val c (qsub c a b) = val c a - val c b) ∧
      (∀ n : Int, val c a * val c b = n * 2 ^ c.F → MINV c ≤ n → n ≤ MAXV c → val c (qmul c a b) = n)) ∧
    (qadd c 0 0 = 0 ∧ qsub c 0 0 = 0 ∧ qmul c 0 0 = 0 ∧ qmac c 0 0 0 = 0 ∧ qmsu c 0 0 0 = 0)

/-- R82: the word of an integer in range, and the exact multiplication by it, in both rounding modes; BUILD forms the
gain word so. -/
def Obligations.IntegerWordMultipliesExactly : Prop :=
  (∀ (c : Config) (k : Int), MINV c ≤ k * 2 ^ c.F → k * 2 ^ c.F ≤ MAXV c →
    val c (qFromInt c k) = k * 2 ^ c.F ∧ qFromReal c (.finite (k : Rat)) = some (qFromInt c k) ∧
    ∀ x : Word, qmul c (qFromInt c k) x = sat c (k * val c x)) ∧
  (∀ (ns : BitVec 8) (k : BitVec 16) (payload : List Word) (s : State),
    (buildState ns k payload s).G = qFromInt s.cfg k.toNat)

/-- R86 to R90: each complex operation is the scalar operation once per lane; their corner cases and examples. -/
def Obligations.ComplexOperationsActPerLane : Prop :=
  ∀ (c : Config) (x : Word) (y z : Cplx),
    cadd c y z = ⟨qadd c y.re z.re, qadd c y.im z.im⟩ ∧ csub c y z = ⟨qsub c y.re z.re, qsub c y.im z.im⟩ ∧
    cscale c x z = ⟨qmul c x z.re, qmul c x z.im⟩ ∧
    cmac c y x z = ⟨qmac c y.re x z.re, qmac c y.im x z.im⟩ ∧
    cmsu c y x z = ⟨qmsu c y.re x z.re, qmsu c y.im x z.im⟩ ∧
    cadd c ⟨wordOf (MAXV c), 0⟩ ⟨wordOf 1, wordOf 1⟩ = ⟨wordOf (MAXV c), wordOf 1⟩ ∧
    csub c z z = czero ∧
    csub c czero ⟨wordOf (MINV c), wordOf (MINV c)⟩ = ⟨wordOf (MAXV c), wordOf (MAXV c)⟩ ∧
    (IsWord c z.re → IsWord c z.im → cscale c (wordOf (ONE c)) z = z) ∧
    cscale c 0 z = czero ∧ cscale c x czero = czero ∧
    cscale c (wordOf (-ONE c)) ⟨wordOf (MINV c), wordOf 5⟩ = ⟨wordOf (MAXV c), wordOf (-5)⟩ ∧
    cadd .reference ⟨0x01000000, 0xFFC00000⟩ ⟨0x00800000, 0x00400000⟩ = ⟨0x01800000, 0x00000000⟩ ∧
    csub .reference ⟨0x00200000, 0⟩ ⟨0xFF400000, 0x00400000⟩ = ⟨0x00E00000, 0xFFC00000⟩ ∧
    cscale .reference 0x02000000 ⟨0x00800000, 0xFFE00000⟩ = ⟨0x01000000, 0xFFC00000⟩ ∧
    cmac .reference ⟨0x00480000, 0⟩ 0x00800000 ⟨0x00C00000, 0x00C00000⟩ = ⟨0x00A80000, 0x00600000⟩ ∧
    cmsu .reference ⟨0x00200000, 0⟩ 0xFF000000 ⟨0x00C00000, 0⟩ = ⟨0x00E00000, 0⟩

/-- R79, R80: a rational converts to the nearest word, ties up, then clamps; every word converts back to itself; the
infinities clamp and a not-a-number has no conversion. That the host's finite numbers are the rationals is the model's
choice (notes/assumptions/19.md), and that an infinity is no rational that overflows is beside it (11.md). -/
def Obligations.RealConversionsRoundToNearest : Prop :=
  ∀ c : Config,
    (∀ w : Word, IsWord c w → qFromReal c (.finite (qToReal c w)) = some w) ∧
    (∀ r : Rat, ∃ w, qFromReal c (.finite r) = some w ∧
      (qOverflows c (.finite r) = false →
        r - 1 / 2 ^ (c.F + 1) < qToReal c w ∧ qToReal c w ≤ r + 1 / 2 ^ (c.F + 1)) ∧
      ((MAXV c : Rat) + 1 ≤ r * 2 ^ c.F + 1 / 2 → w = wordOf (MAXV c)) ∧
      (r * 2 ^ c.F + 1 / 2 < (MINV c : Rat) → w = wordOf (MINV c))) ∧
    (∀ r : Rat, qOverflows c (.finite r) = true ↔
      (MAXV c : Rat) + 1 ≤ r * 2 ^ c.F + 1 / 2 ∨ r * 2 ^ c.F + 1 / 2 < (MINV c : Rat)) ∧
    qFromReal c .posInf = some (wordOf (MAXV c)) ∧ qFromReal c .negInf = some (wordOf (MINV c)) ∧
    qFromReal c .nan = none ∧
    qFromReal .reference (.finite (1 / 2)) = some 0x00800000 ∧ qFromReal .reference (.finite (-3 / 2)) = some 0xFE800000 ∧
    qFromReal .reference (.finite 100) = some 0x64000000 ∧ qFromReal .reference (.finite 128) = some 0x7FFFFFFF ∧
    qFromReal .reference (.finite (-128)) = some 0x80000000 ∧
    qFromReal .reference (.finite (259891532474 / 1000000000000)) = some 0x00428840

/-- R81, R152: a host that follows the rules sends a BUILD frame exactly when it has 1 to `NS_MAX` sections, a factor
from 2 to `K_MAX`, and no coefficient that overflows or is not a number; and the frame is exactly the words
`q_from_real` gives, section by section. That an infinity overflows, and that a finite number is a rational, is the
model's reading (notes/assumptions/11.md, 19.md). -/
def Obligations.HostQuantisesOrAbandons : Prop :=
  ∀ (c : Config) (k : Nat) (sections : List RealSection),
    (∀ r ∈ sections.flatMap RealSection.coefficients, qOverflows c r = true ∨ r = .nan →
      hostBuildFrame c k sections = none) ∧
    (∀ ws, hostBuildFrame c k sections = some ws →
      1 ≤ sections.length ∧ sections.length ≤ c.NS_MAX ∧ 2 ≤ k ∧ k ≤ K_MAX c ∧
      ∃ payload, ws = (0x01#8 ++ BitVec.ofNat 8 sections.length ++ BitVec.ofNat 16 k) :: payload ∧
        payload.map some = (sections.flatMap RealSection.coefficients).map (qFromReal c)) ∧
    (1 ≤ sections.length → sections.length ≤ c.NS_MAX → 2 ≤ k → k ≤ K_MAX c →
      (∀ r ∈ sections.flatMap RealSection.coefficients, qOverflows c r = false ∧ r ≠ .nan) →
      ∃ ws, hostBuildFrame c k sections = some ws)

/-! ### Memory and the stage -/

/-- R39: a write changes the word written and nothing else. -/
def Obligations.WriteChangesOneWord : Prop :=
  ∀ (m : Memory) (a b : Nat) (v : Word), a < m.length →
    memRead (memWrite m a v) a = v ∧ (b ≠ a → memRead (memWrite m a v) b = memRead m b) ∧
    (memWrite m a v).length = m.length ∧ memWrite m a (memRead m a) = m

/-- R97: the nine operations of one lane in their order, every intermediate a `W`-bit word; `w1' = w0` and
`w2' = w1`. -/
def Obligations.StageLaneIsNineOperationsInOrder : Prop :=
  ∀ (c : Config) (b0 b1 b2 a1 a2 w1 w2 x : Word),
    let w0 := qsub c (qsub c x (qmul c a1 w1)) (qmul c a2 w2)
    sosLane c ⟨b0, b1, b2, a1, a2⟩ w1 w2 x =
      ⟨qadd c (qadd c (qmul c b0 w0) (qmul c b1 w1)) (qmul c b2 w2), w0, w1⟩ ∧
    w0 = qmsu c (qmsu c x a1 w1) a2 w2 ∧
    (sosLane c ⟨b0, b1, b2, a1, a2⟩ w1 w2 x).y = qmac c (qmac c (qmul c b0 w0) b1 w1) b2 w2 ∧
    laneProgram.map LaneOp.prim = [.qmul, .qsub, .qmul, .qsub, .qmul, .qmul, .qadd, .qmul, .qadd] ∧
    (let env := runLaneProgram c laneProgram (laneInputs ⟨b0, b1, b2, a1, a2⟩ w1 w2 x)
     env .w0 = w0 ∧ env .y = (sosLane c ⟨b0, b1, b2, a1, a2⟩ w1 w2 x).y) ∧
    (let t := sosLaneTrace c ⟨b0, b1, b2, a1, a2⟩ w1 w2 x
     ∀ w ∈ [t.t1, t.a, t.t2, t.w0, t.u0, t.u1, t.s1, t.u2, t.y], IsWord c w) ∧
    sosLaneTrace .reference ⟨0x00400000, 0x00800000, 0x00400000, 0xFF000000, 0x00800000⟩ 0x00C00000 0xFF800000
      0x00200000 = ⟨0xFF400000, 0x00E00000, 0xFFC00000, 0x01200000, 0x00480000, 0x00600000, 0x00A80000, 0xFFE00000,
        0x00880000⟩

/-- R95: from rest and in exact arithmetic the outputs `y` of a stage satisfy the difference equation of
`(b0 + b1 z^-1 + b2 z^-2) / (1 + a1 z^-1 + a2 z^-2)`; and a stage step of the hardware none of whose nine operations
rounds or clamps gives the real values of the exact stage. Reading R95's transfer function as a difference equation is
the model's (notes/assumptions/20.md). -/
def Obligations.ExactStageRealisesItsTransferFunction : Prop :=
  (∀ (k : RealCoefs) (xs : Nat → Rat),
    (exactRun k xs 1).y = k.b0 * xs 0 ∧
    (exactRun k xs 2).y + k.a1 * (exactRun k xs 1).y = k.b0 * xs 1 + k.b1 * xs 0 ∧
    ∀ n, (exactRun k xs (n + 3)).y + k.a1 * (exactRun k xs (n + 2)).y + k.a2 * (exactRun k xs (n + 1)).y =
      k.b0 * xs (n + 2) + k.b1 * xs (n + 1) + k.b2 * xs n) ∧
  (∀ (c : Config) (k : Coefs) (w1 w2 x : Word), TraceIsExact c k w1 w2 x (sosLaneTrace c k w1 w2 x) →
    let hw := sosLane c k w1 w2 x
    exactLane (realCoefs c k) (qToReal c w1) (qToReal c w2) (qToReal c x) =
      ⟨qToReal c hw.y, qToReal c hw.w1, qToReal c hw.w2⟩)

/-- R98, R101: a stage step computes both lanes from the old registers, replaces the section's four words together,
and touches no other word. -/
def Obligations.StageStepWritesOnlyItsRegisters : Prop :=
  ∀ (c : Config) (coef dly : Memory) (s : Nat) (v : Cplx), 4 * s + 3 < dly.length →
    let w1 := cplxRead dly (w1Addr s)
    let w2 := cplxRead dly (w2Addr s)
    let k := coefsOf coef s
    let w0 := cmsu c (cmsu c v k.a1 w1) k.a2 w2
    let re := sosLane c k w1.re w2.re v.re
    let im := sosLane c k w1.im w2.im v.im
    (sosStep c coef s v dly).1 = ⟨re.y, im.y⟩ ∧ w0 = ⟨re.w1, im.w1⟩ ∧ w1 = ⟨re.w2, im.w2⟩ ∧
    (sosStep c coef s v dly).1 = cmac c (cmac c (cscale c k.b0 w0) k.b1 w1) k.b2 w2 ∧
    cplxRead (sosStep c coef s v dly).2 (w1Addr s) = w0 ∧
    cplxRead (sosStep c coef s v dly).2 (w2Addr s) = w1 ∧
    (sosStep c coef s v dly).2.length = dly.length ∧
    (∀ a, a < 4 * s ∨ 4 * s + 4 ≤ a → memRead (sosStep c coef s v dly).2 a = memRead dly a)

/-- R100: a stage at rest fed zero emits zero and stays at rest, whatever the coefficients. -/
def Obligations.StageAtRestStaysAtRest : Prop :=
  ∀ (c : Config) (k : Coefs), sosLane c k 0 0 0 = ⟨0, 0, 0⟩

/-- R102 (a), (b): all coefficients zero, and the pass-through stage. -/
def Obligations.StageCornerCases : Prop :=
  ∀ (c : Config) (w1 w2 x : Word), IsWord c x →
    sosLane c ⟨0, 0, 0, 0, 0⟩ w1 w2 x = ⟨0, x, w1⟩ ∧
    sosLane c ⟨wordOf (ONE c), 0, 0, 0, 0⟩ w1 w2 x = ⟨x, x, w1⟩

/-- R103, R160: counting every scalar operation where it is performed, a lane of a stage step does 5 `qmul`, 2 `qsub`,
2 `qadd`, a complex stage step twice that, and an EXEC on a live cascade, walked over its `K * NS` stage steps and its
`K` gain scalings, `10*K*NS + 2*K`, `4*K*NS` and `4*K*NS`; the counted walk gives the words, the delay memory and the
response of that very EXEC; scenario 6 of the source. -/
def Obligations.OperationCounts : Prop :=
  (∀ (c : Config) (k : Coefs) (w1 w2 x : Word) (n : OpCount),
    countedLane c k w1 w2 x n = (sosLane c k w1 w2 x, ⟨n.qmul + 5, n.qsub + 2, n.qadd + 2⟩)) ∧
  (∀ (c : Config) (coef dly : Memory) (s : Nat) (v : Cplx) (n : OpCount),
    countedSosStep c coef s v dly n = (sosStep c coef s v dly, ⟨n.qmul + 10, n.qsub + 4, n.qadd + 4⟩)) ∧
  (∀ (s : State) (re im : Word), Inv s → s.LIFE = .CREATED ∨ s.LIFE = .EXECUTING →
    let walk := countedExec (sampleOperand s.cfg re im) s
    exec (.exec re im) s = .next
      { s with
        LIFE := .EXECUTING
        DLY := walk.1.2
        rsp := s.rsp ++ (0x02#8 ++ 0x00#8 ++ BitVec.ofNat 16 (2 * s.K.toNat)) :: walk.1.1 } ∧
    walk.2 = ⟨10 * s.K.toNat * s.NS.toNat + 2 * s.K.toNat, 4 * s.K.toNat * s.NS.toNat, 4 * s.K.toNat * s.NS.toNat⟩ ∧
    (s.NS = 4 → s.K = 4 → walk.2 = ⟨168, 64, 64⟩))

/-! ### BUILD -/

/-- R106, R134: a BUILD with an error reports the first failing check in the order of R106 and changes nothing but the
response stream. -/
def Obligations.BuildReportsTheFirstFailingCheck : Prop :=
  ∀ (s : State) (ns : BitVec 8) (k : BitVec 16) (payload : List Word), payload.length = 5 * ns.toNat →
    (k.toNat < 2 → exec (.build ns k payload) s = .next { s with rsp := s.rsp ++ [0x01200000] }) ∧
    (2 ≤ k.toNat → ns.toNat = 0 → exec (.build ns k payload) s = .next { s with rsp := s.rsp ++ [0x01210000] }) ∧
    (2 ≤ k.toNat → 1 ≤ ns.toNat → K_MAX s.cfg < k.toNat →
      exec (.build ns k payload) s = .next { s with rsp := s.rsp ++ [0x01220000] }) ∧
    (2 ≤ k.toNat → 1 ≤ ns.toNat → k.toNat ≤ K_MAX s.cfg → s.cfg.NS_MAX < ns.toNat →
      exec (.build ns k payload) s = .next { s with rsp := s.rsp ++ [0x01230000] }) ∧
    (2 ≤ k.toNat → 1 ≤ ns.toNat → k.toNat ≤ K_MAX s.cfg → ns.toNat ≤ s.cfg.NS_MAX →
      s.LIFE = .CREATED ∨ s.LIFE = .EXECUTING →
      exec (.build ns k payload) s = .next { s with rsp := s.rsp ++ [0x01240000] })

/-- R25, R106: a BUILD whose checks pass completes; what it leaves in every register and memory word; its frame: the
words of sections `>= NS`, the command stream, the parameters and the draw counter are unchanged. -/
def Obligations.BuildCreatesTheCascade : Prop :=
  ∀ (s : State) (ns : BitVec 8) (k : BitVec 16) (payload : List Word), Inv s → payload.length = 5 * ns.toNat →
    2 ≤ k.toNat → k.toNat ≤ K_MAX s.cfg → 1 ≤ ns.toNat → ns.toNat ≤ s.cfg.NS_MAX →
    s.LIFE = .NONE ∨ s.LIFE = .DESTROYED →
    ∃ t, exec (.build ns k payload) s = .next t ∧
      t.LIFE = .CREATED ∧ t.NS = ns ∧ t.K = k ∧ val s.cfg t.G = k.toNat * 2 ^ s.cfg.F ∧ IsWord s.cfg t.G ∧
      (∀ n < ns.toNat, ∀ j < 5, memRead t.COEF (5 * n + j) = container s.cfg (payload.getD (5 * n + j) 0)) ∧
      (∀ n < ns.toNat, cplxRead t.DLY (w1Addr n) = czero ∧ cplxRead t.DLY (w2Addr n) = czero) ∧
      (∀ a, 5 * ns.toNat ≤ a → memRead t.COEF a = memRead s.COEF a) ∧
      (∀ a, 4 * ns.toNat ≤ a → memRead t.DLY a = memRead s.DLY a) ∧
      t.rsp = s.rsp ++ [0x01000000] ∧ t.cmd = s.cmd ∧ t.cfg = s.cfg ∧ t.rst = s.rst ∧ t.draws = s.draws

/-- R81, R152, R106: the frame of a host that follows the boot order is accepted from the reset state of any block: one
step creates the cascade and answers OK. -/
def Obligations.HostBootIsAccepted : Prop :=
  ∀ (c : Config) (k : Nat) (sections : List RealSection) (ws : List Word), hostBuildFrame c k sections = some ws →
    ∃ t, step { State.resetOf c with cmd := ws } = .next t ∧ t.LIFE = .CREATED ∧
      t.NS.toNat = sections.length ∧ t.K.toNat = k ∧ t.cmd = [] ∧ t.rsp = [0x01000000]

/-! ### EXEC -/

/-- R107, R111 to R113: an EXEC on a live cascade completes: `K` passes, the input first and then zeros, each through
sections `0 .. NS-1`; every raw output times `K`, clamped, which is its product with the gain word; the response;
nothing else changes. -/
def Obligations.ExecRunsKPassesAndScalesThem : Prop :=
  ∀ (s : State) (re im : Word), Inv s → s.LIFE = .CREATED ∨ s.LIFE = .EXECUTING →
    let passes := runPasses s.cfg s.COEF s.NS.toNat
      (⟨container s.cfg re, container s.cfg im⟩ :: List.replicate (s.K.toNat - 1) ⟨0, 0⟩) s.DLY
    exec (.exec re im) s = .next
      { s with
        LIFE := .EXECUTING
        DLY := passes.2
        rsp := s.rsp ++ (0x02#8 ++ 0x00#8 ++ BitVec.ofNat 16 (2 * s.K.toNat)) ::
          passes.1.flatMap (fun z => [sat s.cfg (s.K.toNat * val s.cfg z.re), sat s.cfg (s.K.toNat * val s.cfg z.im)]) } ∧
    ∀ z : Cplx, cscale s.cfg s.G z =
      ⟨sat s.cfg (s.K.toNat * val s.cfg z.re), sat s.cfg (s.K.toNat * val s.cfg z.im)⟩

/-- R107: EXEC on a cascade that is not live, and on a live one with no sections, answers the usage error and changes
nothing but the response stream. -/
def Obligations.ExecUsageErrors : Prop :=
  ∀ (s : State) (re im : Word),
    (s.LIFE = .NONE ∨ s.LIFE = .DESTROYED → exec (.exec re im) s = .next { s with rsp := s.rsp ++ [0x02300000] }) ∧
    (s.LIFE = .CREATED ∨ s.LIFE = .EXECUTING → s.NS = 0 →
      exec (.exec re im) s = .next { s with rsp := s.rsp ++ [0x02310000] })

/-- R21, R101: the frame of EXEC: the words of `DLY` of sections `>= NS` and everything but `LIFE`, the used `DLY`
words and the response stream are unchanged; the response stream only grows. -/
def Obligations.ExecFrame : Prop :=
  ∀ (s t : State) (re im : Word), Inv s → exec (.exec re im) s = .next t →
    t.cfg = s.cfg ∧ t.NS = s.NS ∧ t.K = s.K ∧ t.G = s.G ∧ t.COEF = s.COEF ∧ t.cmd = s.cmd ∧ t.rst = s.rst ∧
    t.draws = s.draws ∧ s.rsp <+: t.rsp ∧ t.DLY.length = s.DLY.length ∧
    (∀ a, 4 * s.NS.toNat ≤ a → memRead t.DLY a = memRead s.DLY a)

/-- R33, R52: the payload of a successful EXEC is `OUT[0].re, OUT[0].im, OUT[1].re, ...`: word `2*p` is the `re` word
of output `p`, word `2*p + 1` its `im` word. -/
def Obligations.OutputWordsInProductionOrder : Prop :=
  ∀ (out : List Cplx), (outWords out).length = 2 * out.length ∧
    ∀ (p : Nat) (h : p < out.length),
      memRead (outWords out) (outAddr p) = out[p].re ∧ memRead (outWords out) (outAddr p + 1) = out[p].im

/-- R117: every successful EXEC response carries exactly `2 * K` words and says so in `COUNT`; every errored one carries
none; `N` EXECs on a live cascade emit `K * N` samples to a host that takes its responses. -/
def Obligations.EveryExecEmitsKSamples : Prop :=
  (∀ (s t : State) (re im : Word), Inv s → exec (.exec re im) s = .next t →
    (s.LIFE.live = true → ∃ out : List Word, out.length = 2 * s.K.toNat ∧
      t.rsp = s.rsp ++ (0x02#8 ++ 0x00#8 ++ BitVec.ofNat 16 out.length) :: out ∧
      (BitVec.ofNat 16 out.length).toNat = out.length) ∧
    (s.LIFE.live = false → t.rsp = s.rsp ++ [0x02300000])) ∧
  (∀ (s : State) (xs : List (Word × Word)) (rest : List Word), Inv s → s.LIFE.live = true → s.rst = false →
    s.cmd = execFrames xs ++ rest →
    ∃ t words, hostRun xs.length s = some (t, words) ∧ t.cmd = rest ∧
      words.length = s.rsp.length + xs.length * (1 + 2 * s.K.toNat))

/-- R116: `N` EXECs on a live cascade whose host takes its responses produce the outputs of the cascade run over the zero-stuffed sequence from the
delay registers the first EXEC found, each scaled by the gain, and leave its delay registers. -/
def Obligations.ExecsRunOverTheZeroStuffedSequence : Prop :=
  ∀ (s : State) (xs : List (Word × Word)) (rest : List Word), Inv s → s.LIFE.live = true → s.rst = false →
    s.cmd = execFrames xs ++ rest →
    let passes := runPasses s.cfg s.COEF s.NS.toNat (zeroStuff s.K.toNat (samplesOf s.cfg xs)) s.DLY
    ∃ t words, hostRun xs.length s = some (t, words) ∧ t.DLY = passes.2 ∧ t.cmd = rest ∧
      (takeResponses xs.length (words.drop s.rsp.length)).length = xs.length ∧
      (takeResponses xs.length (words.drop s.rsp.length)).flatMap RspFrame.payload =
        outWords (passes.1.map (cscale s.cfg s.G))

/-- R118: immediately after RESET, and immediately after BUILD, any number of EXECs on zero samples answers zero words
only, read by a host that takes its responses. -/
def Obligations.ZeroInputAfterResetGivesZeroOutput : Prop :=
  (∀ (s : State) (n : Nat) (rest : List Word), Inv s → s.LIFE.live = true → s.rst = false →
    s.cmd = encode .reset ++ (execFrames (List.replicate n (0, 0)) ++ rest) →
    ∃ t words, hostRun (1 + n) s = some (t, words) ∧ t.cmd = rest ∧
      words = s.rsp ++ 0x03000000 ::
        (List.replicate n ((0x02#8 ++ 0x00#8 ++ BitVec.ofNat 16 (2 * s.K.toNat)) ::
          List.replicate (2 * s.K.toNat) 0)).flatten) ∧
  (∀ (s : State) (ns : BitVec 8) (k : BitVec 16) (payload : List Word) (n : Nat) (rest : List Word), Inv s →
    s.LIFE.live = false → s.rst = false → payload.length = 5 * ns.toNat →
    2 ≤ k.toNat → k.toNat ≤ K_MAX s.cfg → 1 ≤ ns.toNat → ns.toNat ≤ s.cfg.NS_MAX →
    s.cmd = encode (.build ns k payload) ++ (execFrames (List.replicate n (0, 0)) ++ rest) →
    ∃ t words, hostRun (1 + n) s = some (t, words) ∧ t.cmd = rest ∧
      words = s.rsp ++ 0x01000000 ::
        (List.replicate n ((0x02#8 ++ 0x00#8 ++ BitVec.ofNat 16 (2 * k.toNat)) ::
          List.replicate (2 * k.toNat) 0)).flatten)

/-- R91: the lanes are independent. Two blocks that agree on the parameters, `NS`, `K`, `G`, `COEF`, the sample's word
of one lane and that lane's delay words, and on nothing else, end an EXEC with the same output words and the same delay
words in that lane. `lane = 0` is `re`, `lane = 1` is `im`. -/
def Obligations.LanesAreIndependent : Prop :=
  ∀ (s t s' t' : State) (lane : Nat) (x y : Word × Word), lane < 2 → Inv s → Inv t →
    s.LIFE.live = true → t.LIFE.live = true → s.cfg = t.cfg → s.NS = t.NS → s.K = t.K → s.G = t.G → s.COEF = t.COEF →
    (if lane = 0 then x.1 = y.1 else x.2 = y.2) → SameLane lane s.NS.toNat s.DLY t.DLY →
    exec (.exec x.1 x.2) s = .next s' → exec (.exec y.1 y.2) t = .next t' →
    SameLane lane s.NS.toNat s'.DLY t'.DLY ∧
    ∀ p < s.K.toNat, memRead s'.rsp (s.rsp.length + 1 + 2 * p + lane) = memRead t'.rsp (t.rsp.length + 1 + 2 * p + lane)

/-- R19, R115, R122: walking `SEQ = (p, s)` one stage step at a time, passes outermost and stages inside, for `K * NS`
stage steps from `(0, 0)` gives the raw outputs and the delay words of the one atomic EXEC; on the way `SEQ` after `n`
stage steps is `(n / NS, n % NS)`. -/
def Obligations.SequencerComputesTheExec : Prop :=
  ∀ (s : State) (x : Cplx), 1 ≤ s.NS.toNat →
    (∀ n, (seqRun s.cfg s.COEF s.NS.toNat n (seqStart x s.DLY)).p = n / s.NS.toNat ∧
      (seqRun s.cfg s.COEF s.NS.toNat n (seqStart x s.DLY)).s = n % s.NS.toNat) ∧
    (seqRun s.cfg s.COEF s.NS.toNat (s.K.toNat * s.NS.toNat) (seqStart x s.DLY)).RAW = (execPasses x s).1 ∧
    (seqRun s.cfg s.COEF s.NS.toNat (s.K.toNat * s.NS.toNat) (seqStart x s.DLY)).DLY = (execPasses x s).2

/-! ### RESET and DESTROY -/

/-- R26, R108: RESET on a live cascade completes: the used delay registers are zero, `LIFE` is `EXECUTING`, the
response is OK, and nothing else changes, the delay words of sections `>= NS` included. -/
def Obligations.ResetZeroesTheDelays : Prop :=
  ∀ s : State, Inv s → s.LIFE = .CREATED ∨ s.LIFE = .EXECUTING →
    ∃ d : Memory, exec .reset s = .next { s with LIFE := .EXECUTING, DLY := d, rsp := s.rsp ++ [0x03000000] } ∧
      d.length = s.DLY.length ∧
      (∀ n < s.NS.toNat, cplxRead d (w1Addr n) = czero ∧ cplxRead d (w2Addr n) = czero) ∧
      (∀ a, 4 * s.NS.toNat ≤ a → memRead d a = memRead s.DLY a)

/-- R27, R109: DESTROY on a live cascade completes: `LIFE` is `DESTROYED` and the response is OK. `NS`, `K`, `G`,
`COEF`, `DLY` become unspecified: nothing is said of them but that they hold words of their widths. The streams'
remainder, the parameters and `rst` are unchanged; only the draw counter of the model advances
(notes/assumptions/4.md). -/
def Obligations.DestroyReleasesTheCascade : Prop :=
  ∀ s : State, s.LIFE = .CREATED ∨ s.LIFE = .EXECUTING →
    ∃ t, exec .destroy s = .next t ∧ t.LIFE = .DESTROYED ∧ t.rsp = s.rsp ++ [0x04000000] ∧ t.cmd = s.cmd ∧
      t.cfg = s.cfg ∧ t.rst = s.rst ∧ t.draws = s.draws + 1 ∧ Memory.wf s.cfg (5 * s.cfg.NS_MAX) t.COEF ∧
      Memory.wf s.cfg (4 * s.cfg.NS_MAX) t.DLY ∧ IsWord s.cfg t.G

/-- R108, R109: RESET and DESTROY on a cascade that is not live answer the usage error and change nothing else. -/
def Obligations.ResetAndDestroyNeedALiveCascade : Prop :=
  ∀ s : State, s.LIFE = .NONE ∨ s.LIFE = .DESTROYED →
    exec .reset s = .next { s with rsp := s.rsp ++ [0x03300000] } ∧
    exec .destroy s = .next { s with rsp := s.rsp ++ [0x04300000] }

/-! ### The lifecycle, errors, responses -/

/-- R114: the lifecycle table: the next `LIFE` and the response header for every state and command, the illegal header
included. -/
def Obligations.LifecycleTable : Prop :=
  ∀ s : State, Inv s →
    (∀ ns k payload, payload.length = 5 * ns.toNat → 2 ≤ k.toNat → k.toNat ≤ K_MAX s.cfg → 1 ≤ ns.toNat →
      ns.toNat ≤ s.cfg.NS_MAX → ∃ t, exec (.build ns k payload) s = .next t ∧
        t.LIFE = (if s.LIFE = .NONE ∨ s.LIFE = .DESTROYED then .CREATED else s.LIFE) ∧
        t.rsp = s.rsp ++ [if s.LIFE = .NONE ∨ s.LIFE = .DESTROYED then 0x01000000 else 0x01240000]) ∧
    (∀ re im, ∃ t payload, exec (.exec re im) s = .next t ∧
      t.LIFE = (if s.LIFE = .CREATED ∨ s.LIFE = .EXECUTING then .EXECUTING else s.LIFE) ∧
      t.rsp = s.rsp ++ (if s.LIFE = .CREATED ∨ s.LIFE = .EXECUTING then
        (0x02#8 ++ 0x00#8 ++ BitVec.ofNat 16 (2 * s.K.toNat)) :: payload else [0x02300000])) ∧
    (∃ t, exec .reset s = .next t ∧
      t.LIFE = (if s.LIFE = .CREATED ∨ s.LIFE = .EXECUTING then .EXECUTING else s.LIFE) ∧
      t.rsp = s.rsp ++ [if s.LIFE = .CREATED ∨ s.LIFE = .EXECUTING then 0x03000000 else 0x03300000]) ∧
    (∃ t, exec .destroy s = .next t ∧
      t.LIFE = (if s.LIFE = .CREATED ∨ s.LIFE = .EXECUTING then .DESTROYED else s.LIFE) ∧
      t.rsp = s.rsp ++ [if s.LIFE = .CREATED ∨ s.LIFE = .EXECUTING then 0x04000000 else 0x04300000]) ∧
    (∀ h, (execIllegal h s).LIFE = s.LIFE ∧
      (execIllegal h s).rsp = s.rsp ++ [h.extractLsb' 24 8 ++ 0x40#8 ++ 0x0000#16])

/-- R133: a command that reports an error writes no architectural state: the state after it is the state before it with
one response header, `{OPC echo, code, COUNT = 0}`, appended. -/
def Obligations.ErroredCommandsChangeNothing : Prop :=
  ∀ (s t : State) (i : Instr), exec i s = .next t →
    ∃ (st : Status) (payload : List Word),
      t.rsp = s.rsp ++ ((opOf i).code ++ st.code ++ BitVec.ofNat 16 payload.length) :: payload ∧
      (st ≠ .OK → payload = [] ∧
        t = { s with rsp := s.rsp ++ [(opOf i).code ++ st.code ++ 0x0000#16] })

/-- R132: which command can raise what, exhaustively, each code by some command on some state. -/
def Obligations.StatusCodesPerCommand : Prop :=
  (∀ (s t : State) (i : Instr), exec i s = .next t →
    ∃ (st : Status) (payload : List Word),
      t.rsp = s.rsp ++ ((opOf i).code ++ st.code ++ BitVec.ofNat 16 payload.length) :: payload ∧
      st ∈ (match i with
        | .build _ _ _ => [.OK, .BUILD_ERR_K, .BUILD_ERR_EMPTY, .BUILD_ERR_K_RANGE, .BUILD_ERR_NS_RANGE, .BUILD_ERR_LIVE]
        | .exec _ _ => [.OK, .USAGE_ERR_HANDLE, .USAGE_ERR_EMPTY]
        | .reset => [.OK, .USAGE_ERR_HANDLE]
        | .destroy => [.OK, .USAGE_ERR_HANDLE] : List Status)) ∧
  (∀ code ∈ ([0x20, 0x21, 0x22, 0x23, 0x24] : List (BitVec 8)), ∃ (s t : State) (ns : BitVec 8) (k : BitVec 16)
    (payload : List Word), exec (.build ns k payload) s = .next t ∧ t.rsp = s.rsp ++ [0x01#8 ++ code ++ 0x0000#16]) ∧
  (∀ code ∈ ([0x30, 0x31] : List (BitVec 8)), ∃ (s t : State) (re im : Word),
    exec (.exec re im) s = .next t ∧ t.rsp = s.rsp ++ [0x02#8 ++ code ++ 0x0000#16]) ∧
  (∃ s t : State, exec .reset s = .next t ∧ t.rsp = s.rsp ++ [0x03300000]) ∧
  (∃ s t : State, exec .destroy s = .next t ∧ t.rsp = s.rsp ++ [0x04300000]) ∧
  (∀ (h : Word) (s : State), (execIllegal h s).rsp = s.rsp ++ [h.extractLsb' 24 8 ++ 0x40#8 ++ 0x0000#16])

/-- R131: the high nibble of a code is its kind, and no two causes share a code. -/
def Obligations.StatusHighNibbleIsTheKind : Prop :=
  (∀ st : Status, kindOfCode st.code = some st.kind) ∧ (∀ a b : Status, a.code = b.code → a = b) ∧
  (∀ st : Status, kindOfCode st.code ≠ some .designError)

/-- R51: every header word consumed produces exactly one response frame, after all earlier ones, with the header's
opcode byte echoed; the host reads that frame back whole. -/
def Obligations.OneResponsePerHeader : Prop :=
  ∀ (s t : State) (h : Word) (tl : List Word), Inv s → s.rst = false → s.stalled = false → s.cmd = h :: tl →
    decode s.cmd ≠ .incomplete → step s = .next t →
    ∃ f : RspFrame, f.opc = h.extractLsb' 24 8 ∧ (∃ st : Status, f.status = st.code) ∧ t.cmd = tl.drop (frameLength h - 1) ∧
      t.rsp = s.rsp ++ (f.opc ++ f.status ++ BitVec.ofNat 16 f.payload.length) :: f.payload ∧
      (∀ rest, takeResponse (t.rsp.drop s.rsp.length ++ rest) = some (f, rest)) ∧
      (h = 0x02000000 → f.status = 0x00#8 → f.payload.length = 2 * s.K.toNat) ∧
      (h ≠ 0x02000000 ∨ f.status ≠ 0x00#8 → f.payload = [])

/-! ### Whole-machine properties -/

/-- R22 (a), (b): the invariant holds at the reset state of every block. That the unspecified words
are zero there is the model's choice (notes/assumptions/3.md); only that they are `W`-bit words is used. -/
def Obligations.ResetStateMeetsTheInvariant : Prop :=
  Inv State.reset ∧ ∀ c : Config, Inv (State.resetOf c)

/-- R22 (a), (b): every step keeps the invariant: every stored word is a `W`-bit word, and a live cascade has
`1 <= NS <= NS_MAX`, `2 <= K <= K_MAX` and `G = K << F`. -/
def Obligations.StepKeepsTheInvariant : Prop :=
  ∀ s t : State, Inv s → step s = .next t → Inv t

/-- R22: every state the block can reach, by steps and clock edges in any order, meets the invariant. That an edge is a
transition beside `step` is the model's choice (notes/assumptions/10.md). -/
def Obligations.ReachableStatesMeetTheInvariant : Prop :=
  ∀ s : State, Reachable s → Inv s

/-- R125, R135: under the invariant a step always completes: no fault, no refusal. The block never halts by itself and
no data value makes it stop. That holding for a response to be accepted, and waiting for the rest of a frame, are next
states and no faults is the model's reading (notes/assumptions/7.md, 8.md). -/
def Obligations.StepNeverStops : Prop :=
  ∀ s : State, Inv s → Runs s

/-- R23, R119: nothing unspecified leaks. Two blocks that agree on everything a command may read, and differ freely in
the rest of the storage and in the draws, make the same step: the results agree again, the responses included. -/
def Obligations.UnspecifiedStorageNeverLeaks : Prop :=
  ∀ s t s' : State, Inv s → Inv t → SameUsed s t → step s = .next s' →
    ∃ t', step t = .next t' ∧ SameUsed s' t'

/-- R12, R28: while a cascade stays live `NS`, `K`, `G` and `COEF` never change, and no step changes the parameters. -/
def Obligations.LiveCascadeIsImmutable : Prop :=
  ∀ s t : State, step s = .next t →
    t.cfg = s.cfg ∧
    (s.LIFE.live = true → t.LIFE.live = true → t.NS = s.NS ∧ t.K = s.K ∧ t.G = s.G ∧ t.COEF = s.COEF)

/-- R5, R13: `LIFE` is written only by the events R13 names: it becomes `CREATED` only by a BUILD, `EXECUTING` only by
an EXEC or a RESET, `DESTROYED` only by a DESTROY, `NONE` only by a hardware reset. -/
def Obligations.LifeChangesOnlyByItsCommands : Prop :=
  ∀ s t : State, step s = .next t → t.LIFE ≠ s.LIFE →
    (t.LIFE = .NONE ∧ s.rst = true) ∨
    (s.rst = false ∧ ∃ i rest, decode s.cmd = .frame i rest ∧
      ((t.LIFE = .CREATED ∧ opOf i = .BUILD ∧ s.LIFE.live = false) ∨
       (t.LIFE = .EXECUTING ∧ (opOf i = .EXEC ∨ opOf i = .RESET) ∧ s.LIFE = .CREATED) ∨
       (t.LIFE = .DESTROYED ∧ opOf i = .DESTROY ∧ s.LIFE.live = true)))

/-- R150, R157: with `rst` at 1 a step, and an edge of `clk`, leave `LIFE = NONE`, both streams empty and the
parameters as they were, whatever the block was doing; meanwhile `cmd_ready` and `rsp_valid` are 0; after `rst` returns
to 0 the block is idle with `cmd_ready` 1. That frames accepted and not run are dropped too is the model's reading
(notes/assumptions/9.md). -/
def Obligations.HardwareResetDropsEverything : Prop :=
  ∀ (s : State) (i : PortIn) (ready : Bool),
    (s.rst = true → ∃ t, step s = .next t ∧ t.LIFE = .NONE ∧ t.cmd = [] ∧ t.rsp = [] ∧ t.cfg = s.cfg) ∧
    (i.rst = true →
      (portEdge i ready s).LIFE = .NONE ∧ (portEdge i ready s).cmd = [] ∧ (portEdge i ready s).rsp = [] ∧
      (portEdge i ready s).cfg = s.cfg ∧ (portEdge i ready s).rst = true ∧
      (portOut i ready s).cmdReady = false ∧ (portOut i ready s).rspValid = false) ∧
    (i.rst = true → ∀ (j : PortIn) (ready' : Bool), j.rst = false →
      (portOut j ready' (portEdge i ready s)).cmdReady = true)

/-- R34, R60: an edge with `rst` 0 moves one command word in exactly when `cmd_valid` and `cmd_ready` are both 1, at
the end of the stream, and one response word out exactly when `rsp_valid` and `rsp_ready` are both 1, from its front;
it changes no architectural register and no memory word. `cmd_ready` is low only while a command runs or a response is
undelivered (R60, R142), and low then once the input buffer is full (R155). That an edge is a transition beside `step`,
and `ready`, are the model's choice (notes/assumptions/10.md). -/
def Obligations.HandshakeMovesOneWordInOrder : Prop :=
  ∀ (s : State) (i : PortIn) (ready : Bool), i.rst = false →
    (i.cmdValid = true → (portOut i ready s).cmdReady = true → (portEdge i ready s).cmd = s.cmd ++ [i.cmdData]) ∧
    (i.cmdValid = false ∨ (portOut i ready s).cmdReady = false → (portEdge i ready s).cmd = s.cmd) ∧
    (∀ w, i.rspReady = true → (portOut i ready s).rspData = some w → s.rsp = w :: (portEdge i ready s).rsp) ∧
    (i.rspReady = false ∨ (portOut i ready s).rspValid = false → (portEdge i ready s).rsp = s.rsp) ∧
    ((portOut i ready s).rspValid = true ↔ s.rsp ≠ []) ∧
    ((portOut i ready s).cmdReady = false → decode s.cmd ≠ .incomplete ∨ s.rsp ≠ []) ∧
    (decode s.cmd ≠ .incomplete ∨ s.rsp ≠ [] → s.cfg.cmdBuf ≤ s.cmd.length → (portOut i ready s).cmdReady = false) ∧
    (portEdge i ready s).LIFE = s.LIFE ∧ (portEdge i ready s).NS = s.NS ∧ (portEdge i ready s).K = s.K ∧
    (portEdge i ready s).G = s.G ∧ (portEdge i ready s).COEF = s.COEF ∧ (portEdge i ready s).DLY = s.DLY ∧
    (portEdge i ready s).cfg = s.cfg ∧ (portEdge i ready s).rst = false

/-- R155, U11: while the host takes no response word, an engine whose last response is not accepted holds: a step changes
nothing, and under any schedule of steps and edges without an accepted word the block changes only by taking command
words, in order, while its input buffer has room; no word is lost. The buffering is any (notes/assumptions/7.md). -/
def Obligations.EngineHoldsUntilTheResponseIsAccepted : Prop :=
  (∀ s : State, s.rst = false → s.stalled = true → step s = .next s) ∧
  (∀ (l : Link) (schedule : Nat → Event), l.block.rst = false → l.block.stalled = true →
    (∀ n offer ready, schedule n ≠ .edge offer true ready) →
    ∀ n, ∃ sent, l.toSend = sent ++ (l.run schedule n).toSend ∧
      (l.run schedule n).block = { l.block with cmd := l.block.cmd ++ sent } ∧ (l.run schedule n).taken = l.taken ∧
      (sent = [] ∨ (l.block.cmd ++ sent).length ≤ l.block.cfg.cmdBuf))

/-- R34, R155, R161: if the host keeps offering its words and keeps accepting response words, then after finitely many
events, whatever the buffering and the implementation's choices in `cmd_ready`, every word is sent, every whole frame
and illegal header is executed and answered in order, and the host has taken exactly the words of the run in which it
reads between steps; what is left of the command stream is a frame whose payload never came, and nothing happens after.
Fairness is R161's premise as the model writes it (notes/assumptions/10.md). -/
def Obligations.FairHandshakesAnswerEveryFrame : Prop :=
  ∀ (l : Link) (schedule : Nat → Event), Inv l.block → l.block.rst = false → Fair schedule →
    ∃ t words, hostRun (l.block.cmd.length + l.toSend.length) { l.block with cmd := l.block.cmd ++ l.toSend } =
        some (t, words) ∧ decode t.cmd = .incomplete ∧
      ∃ n, ∀ m, n ≤ m → l.run schedule m = ⟨t, [], l.taken ++ words⟩

/-- R58, R59: what each line of a listing assembles to: a word operand is its raw word, or `q_from_real` of its literal
and illegal exactly when that overflows; a BUILD line is the header with `k=`, and `ns=` as written or else the number
of groups, and the groups' words in payload order, and decodes to that BUILD when the header's `NS` is the number of
groups, waits when it is more, and leaves words over when it is less; EXEC, RESET, DESTROY and `.word` lines. Which
lines assemble at the edge of the header fields, and that a literal is a rational, is the model's choice
(notes/assumptions/18.md). -/
def Obligations.ListingLinesAreFrames : Prop :=
  ∀ c : Config,
    (∀ w, assembleLiteral c (.raw w) = some w) ∧
    (∀ r, assembleLiteral c (.real r) = if qOverflows c (.finite r) then none else qFromReal c (.finite r)) ∧
    (∀ (k : Nat) (ns : Option Nat) (groups : List BracketGroup) (ws : List Word),
      assembleLine c (.build k ns groups) = some ws ↔
        k < 2 ^ 16 ∧ ns.getD groups.length < 2 ^ 8 ∧
        ∃ payload : List Word,
          payload.map some = (groups.flatMap (fun g => [g.b0, g.b1, g.b2, g.a1, g.a2])).map (assembleLiteral c) ∧
          ws = (0x01#8 ++ BitVec.ofNat 8 (ns.getD groups.length) ++ BitVec.ofNat 16 k) :: payload) ∧
    (∀ (k : Nat) (ns : Option Nat) (groups : List BracketGroup) (h : Word) (payload : List Word),
      assembleLine c (.build k ns groups) = some (h :: payload) →
      (ns.getD groups.length = groups.length →
        decode (h :: payload) = .frame (.build (BitVec.ofNat 8 groups.length) (BitVec.ofNat 16 k) payload) []) ∧
      (groups.length < ns.getD groups.length → decode (h :: payload) = .incomplete) ∧
      (∀ n, ns = some n → n < groups.length →
        decode (h :: payload) =
          .frame (.build (BitVec.ofNat 8 n) (BitVec.ofNat 16 k) (payload.take (5 * n))) (payload.drop (5 * n)))) ∧
    (∀ (a b : Literal) (ws : List Word), assembleLine c (.exec a b) = some ws ↔
      ∃ re im, assembleLiteral c a = some re ∧ assembleLiteral c b = some im ∧ ws = [0x02000000, re, im]) ∧
    (∀ re im : Word, decode [0x02000000, re, im] = .frame (.exec re im) []) ∧
    (assembleLine c .reset = some [0x03000000] ∧ decode [0x03000000] = .frame .reset []) ∧
    (assembleLine c .destroy = some [0x04000000] ∧ decode [0x04000000] = .frame .destroy []) ∧
    (∀ w : Word, assembleLine c (.word w) = some [w])
end

