-- ==== Sys2Proof/Laws/Memory.lean ====
section
/-!
SUPPORT. Laws/Memory.lean: the lemmas of the memory spaces: read after write, and that every operation keeps
`Memory.wf` (R22 (a), R30 to R40).
-/

namespace Sys2Proof.Machine

@[simp] theorem length_memWrite (m : Memory) (a : Nat) (v : Word) : (memWrite m a v).length = m.length := by
  simp [memWrite]

@[simp] theorem memRead_memWrite_self {m : Memory} {a : Nat} (h : a < m.length) (v : Word) :
    memRead (memWrite m a v) a = v := by simp [memRead, memWrite, h]

@[simp] theorem memRead_memWrite_ne {a b : Nat} (h : a ≠ b) (m : Memory) (v : Word) :
    memRead (memWrite m a v) b = memRead m b := by simp [memRead, memWrite, h]

theorem memRead_mem {m : Memory} {a : Nat} (h : a < m.length) : memRead m a ∈ m := by
  simp [memRead, h]

theorem memory_ext {m n : Memory} (hl : m.length = n.length) (h : ∀ a, memRead m a = memRead n a) : m = n := by
  apply List.ext_getElem hl
  intro i h1 h2
  simpa [memRead, h1, h2] using h i

theorem wf_memWrite {c : Config} {n : Nat} {m : Memory} (h : Memory.wf c n m) (a : Nat) {v : Word} (hv : IsWord c v) :
    Memory.wf c n (memWrite m a v) := by
  refine ⟨by simpa using h.1, fun w hw => ?_⟩
  rcases List.mem_or_eq_of_mem_set hw with h' | h'
  · exact h.2 w h'
  · rw [h']; exact hv

theorem isWord_memRead {c : Config} {n : Nat} {m : Memory} (h : Memory.wf c n m) (hz : IsWord c 0#32) (a : Nat) :
    IsWord c (memRead m a) := by
  by_cases ha : a < m.length
  · exact h.2 _ (memRead_mem ha)
  · simpa [memRead, List.getD, List.getElem?_eq_none (not_lt.1 ha)] using hz

theorem wf_cplxWrite {c : Config} {n : Nat} {m : Memory} (h : Memory.wf c n m) (a : Nat) {z : Cplx}
    (hre : IsWord c z.re) (him : IsWord c z.im) : Memory.wf c n (cplxWrite m a z) :=
  wf_memWrite (wf_memWrite h a hre) (a + 1) him

@[simp] theorem length_cplxWrite (m : Memory) (a : Nat) (z : Cplx) : (cplxWrite m a z).length = m.length := by
  simp [cplxWrite]

theorem memRead_cplxWrite {m : Memory} {a : Nat} (h : a + 1 < m.length) (z : Cplx) (b : Nat) :
    memRead (cplxWrite m a z) b = if b = a then z.re else if b = a + 1 then z.im else memRead m b := by
  unfold cplxWrite
  split_ifs with h1 h2
  · subst h1; rw [memRead_memWrite_ne (by omega), memRead_memWrite_self (by omega)]
  · subst h2; rw [memRead_memWrite_self (by simpa using h)]
  · rw [memRead_memWrite_ne (by omega), memRead_memWrite_ne (by omega)]

@[simp] theorem length_memWriteBlock (vs : List Word) (m : Memory) (a : Nat) :
    (memWriteBlock m a vs).length = m.length := by
  induction vs generalizing m a with
  | nil => rfl
  | cons v vs ih => simp [memWriteBlock, ih]

theorem wf_memWriteBlock {c : Config} {n : Nat} (vs : List Word) {m : Memory} (h : Memory.wf c n m) (a : Nat)
    (hv : ∀ v ∈ vs, IsWord c v) : Memory.wf c n (memWriteBlock m a vs) := by
  induction vs generalizing m a with
  | nil => exact h
  | cons v vs ih =>
    exact ih (wf_memWrite h a (hv v (by simp))) (a + 1) (fun w hw => hv w (by simp [hw]))

theorem memRead_memWriteBlock (vs : List Word) {m : Memory} {a : Nat} (h : a + vs.length ≤ m.length) (b : Nat) :
    memRead (memWriteBlock m a vs) b = if a ≤ b ∧ b < a + vs.length then memRead vs (b - a) else memRead m b := by
  induction vs generalizing m a with
  | nil => simp [memWriteBlock]
  | cons v vs ih =>
    simp only [List.length_cons] at h
    rw [memWriteBlock, ih (by simp; omega)]
    simp only [List.length_cons]
    by_cases h1 : b = a
    · subst h1
      rw [if_neg (by omega), if_pos (by omega), memRead_memWrite_self (by omega)]; simp [memRead]
    · rw [memRead_memWrite_ne (by omega)]
      by_cases h2 : a + 1 ≤ b ∧ b < a + 1 + vs.length
      · rw [if_pos h2, if_pos (by omega), show b - a = (b - (a + 1)) + 1 by omega]; simp [memRead]
      · rw [if_neg h2, if_neg (by omega)]

@[simp] theorem length_clearDelays (dly : Memory) (n : Nat) : (clearDelays dly n).length = dly.length := by
  induction n with
  | zero => rfl
  | succ n ih => simp [clearDelays, ih]

theorem wf_clearDelays {c : Config} {k : Nat} {dly : Memory} (h : Memory.wf c k dly) (hz : IsWord c 0#32) (n : Nat) :
    Memory.wf c k (clearDelays dly n) := by
  induction n with
  | zero => exact h
  | succ n ih =>
    have hre : IsWord c czero.re := hz
    have him : IsWord c czero.im := hz
    exact wf_cplxWrite (wf_cplxWrite ih _ hre him) _ hre him

theorem memRead_clearDelays {dly : Memory} {n : Nat} (h : 4 * n ≤ dly.length) (a : Nat) :
    memRead (clearDelays dly n) a = if a < 4 * n then 0#32 else memRead dly a := by
  induction n with
  | zero => simp [clearDelays]
  | succ n ih =>
    rw [clearDelays, memRead_cplxWrite (by simp [w2Addr]; omega), memRead_cplxWrite (by simp [w1Addr]; omega),
      ih (by omega)]
    simp only [w1Addr, w2Addr, czero, BitVec.ofNat_eq_ofNat]
    by_cases h1 : a < 4 * n
    · simp [h1, show a < 4 * (n + 1) by omega]
    · by_cases h2 : a < 4 * (n + 1)
      · simp only [h1, h2, if_true, if_false]
        split_ifs <;> first | rfl | omega
      · simp only [h1, h2, if_false]
        split_ifs <;> first | rfl | omega

theorem wf_unspecifiedMemory (c : Config) (size : Nat) (free : Nat → Word) (hw : ∀ w, IsWord c (container c w)) :
    Memory.wf c size (unspecifiedMemory c size free) := by
  refine ⟨by simp [unspecifiedMemory], fun w hm => ?_⟩
  simp only [unspecifiedMemory, List.mem_map] at hm
  obtain ⟨a, -, rfl⟩ := hm
  exact hw _

theorem wf_replicate_zero (c : Config) (n : Nat) (hz : IsWord c 0#32) : Memory.wf c n (List.replicate n 0#32) :=
  ⟨by simp, fun _ hw => (List.eq_of_mem_replicate hw) ▸ hz⟩

end Sys2Proof.Machine
end

