-- ==== Sys2Proof/Laws/Scalar.lean ====
section
/-!
SUPPORT. Laws/Scalar.lean: the lemmas of words and of the scalar unit (R65 to R82).
-/

namespace Sys2Proof.Machine

theorem two_pow_W (c : Config) : (2:Int) ^ c.W = 2 * 2 ^ (c.W - 1) := by
  obtain ⟨h, -⟩ := c.valid
  rw [← Int.pow_succ']; congr 1; omega

theorem two_pow_le (c : Config) : (2:Int) ^ (c.W - 1) ≤ 2 ^ 31 := by
  obtain ⟨h, h', -⟩ := c.valid
  exact_mod_cast Nat.pow_le_pow_right (by omega) (by omega)

theorem two_pow_ge (c : Config) : (8:Int) ≤ 2 ^ (c.W - 1) := by
  obtain ⟨h, h', -⟩ := c.valid
  exact_mod_cast Nat.pow_le_pow_right (n := 2) (i := 3) (by omega) (by omega)

theorem MINV_le_val (c : Config) (w : Word) : MINV c ≤ val c w := by
  have := BitVec.le_two_mul_toInt (x := w.setWidth c.W)
  have h := two_pow_W c
  unfold MINV val; omega

theorem val_le_MAXV (c : Config) (w : Word) : val c w ≤ MAXV c := by
  have := BitVec.two_mul_toInt_lt (x := w.setWidth c.W)
  have h := two_pow_W c
  unfold MAXV val; omega

theorem MINV_neg (c : Config) : MINV c < 0 := by have := two_pow_ge c; unfold MINV; omega
theorem MAXV_pos (c : Config) : 0 < MAXV c := by have := two_pow_ge c; unfold MAXV; omega
theorem MAXV_eq (c : Config) : MAXV c = -MINV c - 1 := by unfold MAXV MINV; omega

theorem setWidth_wordOf (c : Config) (n : Int) : (wordOf n).setWidth c.W = BitVec.ofInt c.W n := by
  obtain ⟨-, hw, -⟩ := c.valid
  apply BitVec.eq_of_toNat_eq
  have hd : (2 ^ c.W : Nat) ∣ 2 ^ 32 := Nat.pow_dvd_pow 2 hw
  have hd' : ((2 ^ c.W : Nat) : Int) ∣ ((2 ^ 32 : Nat) : Int) := Int.natCast_dvd_natCast.2 hd
  have hp : (0:Int) ≤ n % ((2 ^ 32 : Nat) : Int) := Int.emod_nonneg _ (by decide)
  have hq : (0:Int) ≤ n % ((2 ^ c.W : Nat) : Int) := Int.emod_nonneg _ (by positivity)
  simp only [wordOf, BitVec.toNat_setWidth, BitVec.toNat_ofInt]
  zify
  push_cast at hp hq hd' ⊢
  rw [Int.toNat_of_nonneg hp, Int.toNat_of_nonneg hq]
  exact Int.emod_emod_of_dvd n hd'

theorem val_wordOf (c : Config) {n : Int} (h1 : MINV c ≤ n) (h2 : n ≤ MAXV c) : val c (wordOf n) = n := by
  have hs := two_pow_W c
  unfold MINV at h1; unfold MAXV at h2
  rw [val, setWidth_wordOf, BitVec.toInt_ofInt]
  apply Int.bmod_eq_of_le <;> push_cast <;> omega

theorem container_eq (c : Config) (w : Word) : container c w = wordOf (val c w) := rfl

@[simp] theorem val_container (c : Config) (w : Word) : val c (container c w) = val c w := by
  rw [container_eq, val_wordOf c (MINV_le_val c w) (val_le_MAXV c w)]

@[simp] theorem isWord_container (c : Config) (w : Word) : IsWord c (container c w) := by
  unfold IsWord; rw [container_eq, val_container]; rfl

theorem isWord_wordOf (c : Config) {n : Int} (h1 : MINV c ≤ n) (h2 : n ≤ MAXV c) : IsWord c (wordOf n) := by
  unfold IsWord; rw [container_eq, val_wordOf c h1 h2]

theorem wordOf_val {c : Config} {w : Word} (h : IsWord c w) : wordOf (val c w) = w := h

theorem word_ext {c : Config} {a b : Word} (ha : IsWord c a) (hb : IsWord c b) (h : val c a = val c b) : a = b := by
  rw [← wordOf_val ha, ← wordOf_val hb, h]

theorem clamp_le (c : Config) (n : Int) : clamp c n ≤ MAXV c := by
  have := MAXV_pos c; have := MINV_neg c; unfold clamp; split_ifs <;> omega
theorem le_clamp (c : Config) (n : Int) : MINV c ≤ clamp c n := by
  have := MAXV_pos c; have := MINV_neg c; unfold clamp; split_ifs <;> omega
theorem clamp_of_mem {c : Config} {n : Int} (h1 : MINV c ≤ n) (h2 : n ≤ MAXV c) : clamp c n = n := by
  unfold clamp; split_ifs <;> omega
theorem clamp_mono (c : Config) {m n : Int} (h : m ≤ n) : clamp c m ≤ clamp c n := by
  have := MAXV_pos c; have := MINV_neg c; unfold clamp; split_ifs <;> omega
@[simp] theorem clamp_val (c : Config) (w : Word) : clamp c (val c w) = val c w :=
  clamp_of_mem (MINV_le_val c w) (val_le_MAXV c w)

@[simp] theorem val_sat (c : Config) (n : Int) : val c (sat c n) = clamp c n :=
  val_wordOf c (le_clamp c n) (clamp_le c n)
@[simp] theorem isWord_sat (c : Config) (n : Int) : IsWord c (sat c n) :=
  isWord_wordOf c (le_clamp c n) (clamp_le c n)
theorem sat_val {c : Config} {w : Word} (h : IsWord c w) : sat c (val c w) = w := by
  rw [sat, clamp_val, wordOf_val h]

@[simp] theorem isWord_qadd (c : Config) (a b : Word) : IsWord c (qadd c a b) := isWord_sat _ _
@[simp] theorem isWord_qsub (c : Config) (a b : Word) : IsWord c (qsub c a b) := isWord_sat _ _
@[simp] theorem isWord_qmul (c : Config) (a b : Word) : IsWord c (qmul c a b) := isWord_sat _ _

@[simp] theorem val_zero (c : Config) : val c 0#32 = 0 := by
  have := val_wordOf c (n := 0) (MINV_neg c).le (MAXV_pos c).le
  simpa [wordOf] using this
@[simp] theorem sat_zero (c : Config) : sat c 0 = 0#32 := by
  rw [sat, clamp_of_mem (MINV_neg c).le (MAXV_pos c).le]; rfl
theorem isWord_zero (c : Config) : IsWord c 0#32 := by rw [← sat_zero c]; exact isWord_sat _ _

theorem rnd_eq (c : Config) (p : Int) :
    rnd c p = match c.RND with
      | .HALF_UP => (p + HALF c) / 2 ^ c.F
      | .TRUNC => p / 2 ^ c.F := by
  unfold rnd; cases c.RND <;> simp [Int.shiftRight_eq_div_pow]

theorem HALF_bounds (c : Config) : 0 ≤ HALF c ∧ HALF c < 2 ^ c.F := by
  obtain ⟨-, -, hF, -⟩ := c.valid
  constructor
  · unfold HALF; positivity
  · unfold HALF; exact_mod_cast Nat.pow_lt_pow_right (a := 2) (by omega) (by omega : c.F - 1 < c.F)

theorem rnd_mul_pow (c : Config) (n : Int) : rnd c (n * 2 ^ c.F) = n := by
  have hp : (0:Int) < 2 ^ c.F := by positivity
  obtain ⟨h0, h1⟩ := HALF_bounds c
  rw [rnd_eq]; cases c.RND
  · simp only; rw [add_comm, Int.add_mul_ediv_right _ _ hp.ne', Int.ediv_eq_zero_of_lt h0 h1, zero_add]
  · simp only; rw [Int.mul_ediv_cancel _ hp.ne']

@[simp] theorem rnd_zero (c : Config) : rnd c 0 = 0 := by simpa using rnd_mul_pow c 0

theorem rnd_mono (c : Config) {p q : Int} (h : p ≤ q) : rnd c p ≤ rnd c q := by
  have hp : (0:Int) < 2 ^ c.F := by positivity
  rw [rnd_eq, rnd_eq]; cases c.RND
  · exact Int.ediv_le_ediv hp (by simpa using h)
  · exact Int.ediv_le_ediv hp h

@[simp] theorem qmul_zero_left (c : Config) (b : Word) : qmul c 0#32 b = 0#32 := by simp [qmul]
@[simp] theorem qmul_zero_right (c : Config) (a : Word) : qmul c a 0#32 = 0#32 := by simp [qmul]
theorem qadd_zero_right {c : Config} {a : Word} (h : IsWord c a) : qadd c a 0#32 = a := by simp [qadd, sat_val h]
theorem qadd_zero_left {c : Config} {a : Word} (h : IsWord c a) : qadd c 0#32 a = a := by simp [qadd, sat_val h]
theorem qsub_zero_right {c : Config} {a : Word} (h : IsWord c a) : qsub c a 0#32 = a := by simp [qsub, sat_val h]
theorem qsub_self (c : Config) (a : Word) : qsub c a a = 0#32 := by simp [qsub]
theorem qadd_comm (c : Config) (a b : Word) : qadd c a b = qadd c b a := by simp [qadd, add_comm]
theorem qmul_comm (c : Config) (a b : Word) : qmul c a b = qmul c b a := by simp [qmul, mul_comm]
theorem two_pow_F_le (c : Config) : (2:Int) ^ c.F ≤ MAXV c := by
  obtain ⟨-, -, hF, hFW, -⟩ := c.valid
  have : (2:Int) ^ (c.W - 1) = 2 ^ (c.W - 1 - c.F) * 2 ^ c.F := by rw [← pow_add]; congr 1; omega
  have h4 : (4:Int) ≤ 2 ^ (c.W - 1 - c.F) := by
    exact_mod_cast Nat.pow_le_pow_right (n := 2) (i := 2) (by omega) (by omega)
  have hp : (0:Int) < 2 ^ c.F := by positivity
  unfold MAXV; rw [this]; nlinarith
theorem val_ONE (c : Config) : val c (wordOf (ONE c)) = ONE c := by
  have hp : (0:Int) < 2 ^ c.F := by positivity
  exact val_wordOf c (le_trans (MINV_neg c).le hp.le) (two_pow_F_le c)
theorem qmul_ONE {c : Config} {a : Word} (h : IsWord c a) : qmul c (wordOf (ONE c)) a = a := by
  rw [qmul, val_ONE, ONE, mul_comm, rnd_mul_pow, sat_val h]

theorem isWord_qFromInt {c : Config} {k : Int} (h0 : 0 ≤ k) (h : k * 2 ^ c.F ≤ MAXV c) : IsWord c (qFromInt c k) := by
  have hp : (0:Int) < 2 ^ c.F := by positivity
  have := MINV_neg c
  rw [qFromInt, Int.shiftLeft_eq]; exact isWord_wordOf c (by nlinarith) h
theorem val_qFromInt {c : Config} {k : Int} (h0 : 0 ≤ k) (h : k * 2 ^ c.F ≤ MAXV c) :
    val c (qFromInt c k) = k * 2 ^ c.F := by
  have hp : (0:Int) < 2 ^ c.F := by positivity
  have := MINV_neg c
  rw [qFromInt, Int.shiftLeft_eq]; exact val_wordOf c (by nlinarith) h
theorem gain_fits {c : Config} {k : Nat} (h : k ≤ K_MAX c) : (k:Int) * 2 ^ c.F ≤ MAXV c := by
  obtain ⟨-, -, hF, hFW, -⟩ := c.valid
  have e : (2:Int) ^ (c.W - 1) = 2 ^ (c.W - 1 - c.F) * 2 ^ c.F := by rw [← pow_add]; congr 1; omega
  have h1 : k ≤ 2 ^ (c.W - 1 - c.F) - 1 := le_trans h (min_le_left _ _)
  have h2 : 1 ≤ 2 ^ (c.W - 1 - c.F) := Nat.one_le_two_pow
  have h3 : (k:Int) ≤ 2 ^ (c.W - 1 - c.F) - 1 := by zify [h2] at h1; exact h1
  have hp : (0:Int) < 2 ^ c.F := by positivity
  unfold MAXV; rw [e]; nlinarith
end Sys2Proof.Machine
end

