-- ==== Sys2Proof/Laws/Cascade.lean ====
section
/-!
SUPPORT. Laws/Cascade.lean: what a stage step, a pass and the passes of an EXEC do to the delay memory (R98 to R113).
-/

namespace Sys2Proof.Machine

theorem sosStep_snd_length (c : Config) (coef : Memory) (s : Nat) (v : Cplx) (dly : Memory) :
    (sosStep c coef s v dly).2.length = dly.length := by simp [sosStep]

theorem isWord_lane (c : Config) (k : Coefs) (w1 w2 x : Word) :
    IsWord c (sosLane c k w1 w2 x).y ∧ IsWord c (sosLane c k w1 w2 x).w1 :=
  ⟨isWord_qadd _ _ _, isWord_qsub _ _ _⟩

theorem wf_sosStep {c : Config} {n : Nat} (coef : Memory) (s : Nat) (v : Cplx) {dly : Memory}
    (h : Memory.wf c n dly) : Memory.wf c n (sosStep c coef s v dly).2 := by
  have hz := isWord_zero c
  refine wf_cplxWrite (wf_cplxWrite h _ ?_ ?_) _ ?_ ?_
  · exact (isWord_lane _ _ _ _ _).2
  · exact (isWord_lane _ _ _ _ _).2
  · exact isWord_memRead h hz _
  · exact isWord_memRead h hz _

/-- The registers of section `s` after a stage step, and every other word as before (R98, R101). -/
theorem memRead_sosStep (c : Config) (coef : Memory) {s : Nat} (v : Cplx) {dly : Memory} (h : 4 * s + 3 < dly.length)
    (a : Nat) :
    memRead (sosStep c coef s v dly).2 a =
      if a = 4 * s then (sosLane c (coefsOf coef s) (memRead dly (4 * s)) (memRead dly (4 * s + 2)) v.re).w1
      else if a = 4 * s + 1 then
        (sosLane c (coefsOf coef s) (memRead dly (4 * s + 1)) (memRead dly (4 * s + 3)) v.im).w1
      else if a = 4 * s + 2 then memRead dly (4 * s)
      else if a = 4 * s + 3 then memRead dly (4 * s + 1)
      else memRead dly a := by
  simp only [sosStep]
  rw [memRead_cplxWrite (by simp [w2Addr]; omega), memRead_cplxWrite (by simp [w1Addr]; omega)]
  simp only [cplxRead, sosLane, w1Addr, w2Addr]
  by_cases h0 : a = 4 * s
  · rw [if_neg (by omega), if_neg (by omega), if_pos h0, if_pos h0]
  by_cases h1 : a = 4 * s + 1
  · rw [if_neg (by omega), if_neg (by omega), if_neg h0, if_pos h1, if_neg h0, if_pos h1]
  by_cases h2 : a = 4 * s + 2
  · rw [if_pos h2, if_neg h0, if_neg h1, if_pos h2]
  by_cases h3 : a = 4 * s + 3
  · rw [if_neg h2, if_pos h3, if_neg h0, if_neg h1, if_neg h2, if_pos h3]
  · rw [if_neg h2, if_neg h3, if_neg h0, if_neg h1, if_neg h0, if_neg h1, if_neg h2, if_neg h3]

theorem sosStep_fst (c : Config) (coef : Memory) (s : Nat) (v : Cplx) (dly : Memory) :
    (sosStep c coef s v dly).1 =
      ⟨(sosLane c (coefsOf coef s) (memRead dly (4 * s)) (memRead dly (4 * s + 2)) v.re).y,
       (sosLane c (coefsOf coef s) (memRead dly (4 * s + 1)) (memRead dly (4 * s + 3)) v.im).y⟩ := rfl

theorem cascadePass_length (c : Config) (coef : Memory) (v : Cplx) (dly : Memory) (n : Nat) :
    (cascadePass c coef v dly n).2.length = dly.length := by
  induction n with
  | zero => rfl
  | succ n ih => rw [cascadePass, sosStep_snd_length, ih]

theorem wf_cascadePass {c : Config} {m : Nat} (coef : Memory) (v : Cplx) {dly : Memory} (h : Memory.wf c m dly)
    (n : Nat) : Memory.wf c m (cascadePass c coef v dly n).2 := by
  induction n with
  | zero => exact h
  | succ n ih => exact wf_sosStep coef n _ ih

theorem memRead_cascadePass_unused (c : Config) (coef : Memory) (v : Cplx) {dly : Memory} {n : Nat}
    (h : 4 * n ≤ dly.length) {a : Nat} (ha : 4 * n ≤ a) :
    memRead (cascadePass c coef v dly n).2 a = memRead dly a := by
  induction n with
  | zero => rfl
  | succ n ih =>
    rw [cascadePass, memRead_sosStep c coef _ (by rw [cascadePass_length]; omega), if_neg (by omega),
      if_neg (by omega), if_neg (by omega), if_neg (by omega), ih (by omega) (by omega)]

theorem runPasses_length (c : Config) (coef : Memory) (ns : Nat) (vs : List Cplx) (dly : Memory) :
    (runPasses c coef ns vs dly).1.length = vs.length := by
  induction vs generalizing dly with
  | nil => rfl
  | cons v vs ih => simp [runPasses, ih]

theorem runPasses_dly_length (c : Config) (coef : Memory) (ns : Nat) (vs : List Cplx) (dly : Memory) :
    (runPasses c coef ns vs dly).2.length = dly.length := by
  induction vs generalizing dly with
  | nil => rfl
  | cons v vs ih => simp [runPasses, ih, cascadePass_length]

theorem wf_runPasses {c : Config} {m : Nat} (coef : Memory) (ns : Nat) (vs : List Cplx) {dly : Memory}
    (h : Memory.wf c m dly) : Memory.wf c m (runPasses c coef ns vs dly).2 := by
  induction vs generalizing dly with
  | nil => exact h
  | cons v vs ih => exact ih (wf_cascadePass coef v h ns)

theorem memRead_runPasses_unused (c : Config) (coef : Memory) {ns : Nat} (vs : List Cplx) {dly : Memory}
    (h : 4 * ns ≤ dly.length) {a : Nat} (ha : 4 * ns ≤ a) :
    memRead (runPasses c coef ns vs dly).2 a = memRead dly a := by
  induction vs generalizing dly with
  | nil => rfl
  | cons v vs ih =>
    rw [runPasses, ih (by rw [cascadePass_length]; exact h), memRead_cascadePass_unused c coef v h ha]

theorem runPasses_append (c : Config) (coef : Memory) (ns : Nat) (xs ys : List Cplx) (dly : Memory) :
    runPasses c coef ns (xs ++ ys) dly =
      ((runPasses c coef ns xs dly).1 ++ (runPasses c coef ns ys (runPasses c coef ns xs dly).2).1,
       (runPasses c coef ns ys (runPasses c coef ns xs dly).2).2) := by
  induction xs generalizing dly with
  | nil => rfl
  | cons x xs ih => simp [runPasses, ih]

@[simp] theorem virtualSamples_length (x : Cplx) (k : Nat) : (virtualSamples x k).length = k := by
  cases k <;> simp [virtualSamples]

@[simp] theorem outWords_length (out : List Cplx) : (outWords out).length = 2 * out.length := by
  induction out with
  | nil => rfl
  | cons z zs ih => simp only [outWords, List.flatMap_cons, List.length_append, List.length_cons, List.length_nil] at *; omega

end Sys2Proof.Machine
end

