-- ==== Sys2Proof/Laws/State.lean ====
section
/-!
SUPPORT. Laws/State.lean: one lemma per field of `State` for each named state update, true by `rfl`.
-/

namespace Sys2Proof.Machine

/-! ### respond -/

@[simp] theorem respond_cfg (op : BitVec 8) (st : Status) (p : List Word) (s : State) : (respond op st p s).cfg = s.cfg := rfl
@[simp] theorem respond_LIFE (op : BitVec 8) (st : Status) (p : List Word) (s : State) : (respond op st p s).LIFE = s.LIFE := rfl
@[simp] theorem respond_NS (op : BitVec 8) (st : Status) (p : List Word) (s : State) : (respond op st p s).NS = s.NS := rfl
@[simp] theorem respond_K (op : BitVec 8) (st : Status) (p : List Word) (s : State) : (respond op st p s).K = s.K := rfl
@[simp] theorem respond_G (op : BitVec 8) (st : Status) (p : List Word) (s : State) : (respond op st p s).G = s.G := rfl
@[simp] theorem respond_COEF (op : BitVec 8) (st : Status) (p : List Word) (s : State) : (respond op st p s).COEF = s.COEF := rfl
@[simp] theorem respond_DLY (op : BitVec 8) (st : Status) (p : List Word) (s : State) : (respond op st p s).DLY = s.DLY := rfl
@[simp] theorem respond_cmd (op : BitVec 8) (st : Status) (p : List Word) (s : State) : (respond op st p s).cmd = s.cmd := rfl
@[simp] theorem respond_rsp (op : BitVec 8) (st : Status) (p : List Word) (s : State) : (respond op st p s).rsp = s.rsp ++ (Response.mk op st p).words := rfl
@[simp] theorem respond_rst (op : BitVec 8) (st : Status) (p : List Word) (s : State) : (respond op st p s).rst = s.rst := rfl
@[simp] theorem respond_draws (op : BitVec 8) (st : Status) (p : List Word) (s : State) : (respond op st p s).draws = s.draws := rfl

/-! ### raiseError -/

@[simp] theorem raiseError_cfg (op : BitVec 8) (st : Status) (s : State) : (raiseError op st s).cfg = s.cfg := rfl
@[simp] theorem raiseError_LIFE (op : BitVec 8) (st : Status) (s : State) : (raiseError op st s).LIFE = s.LIFE := rfl
@[simp] theorem raiseError_NS (op : BitVec 8) (st : Status) (s : State) : (raiseError op st s).NS = s.NS := rfl
@[simp] theorem raiseError_K (op : BitVec 8) (st : Status) (s : State) : (raiseError op st s).K = s.K := rfl
@[simp] theorem raiseError_G (op : BitVec 8) (st : Status) (s : State) : (raiseError op st s).G = s.G := rfl
@[simp] theorem raiseError_COEF (op : BitVec 8) (st : Status) (s : State) : (raiseError op st s).COEF = s.COEF := rfl
@[simp] theorem raiseError_DLY (op : BitVec 8) (st : Status) (s : State) : (raiseError op st s).DLY = s.DLY := rfl
@[simp] theorem raiseError_cmd (op : BitVec 8) (st : Status) (s : State) : (raiseError op st s).cmd = s.cmd := rfl
@[simp] theorem raiseError_rsp (op : BitVec 8) (st : Status) (s : State) : (raiseError op st s).rsp = s.rsp ++ (Response.mk op st []).words := rfl
@[simp] theorem raiseError_rst (op : BitVec 8) (st : Status) (s : State) : (raiseError op st s).rst = s.rst := rfl
@[simp] theorem raiseError_draws (op : BitVec 8) (st : Status) (s : State) : (raiseError op st s).draws = s.draws := rfl

/-! ### releaseStorage -/

@[simp] theorem releaseStorage_cfg (s : State) : (releaseStorage s).cfg = s.cfg := rfl
@[simp] theorem releaseStorage_LIFE (s : State) : (releaseStorage s).LIFE = s.LIFE := rfl
@[simp] theorem releaseStorage_NS (s : State) : (releaseStorage s).NS = Config.freeNS s.draws := rfl
@[simp] theorem releaseStorage_K (s : State) : (releaseStorage s).K = Config.freeK s.draws := rfl
@[simp] theorem releaseStorage_G (s : State) : (releaseStorage s).G = container s.cfg (Config.freeG s.draws) := rfl
@[simp] theorem releaseStorage_COEF (s : State) : (releaseStorage s).COEF = unspecifiedMemory s.cfg (5 * s.cfg.NS_MAX) (Config.freeCOEF s.draws) := rfl
@[simp] theorem releaseStorage_DLY (s : State) : (releaseStorage s).DLY = unspecifiedMemory s.cfg (4 * s.cfg.NS_MAX) (Config.freeDLY s.draws) := rfl
@[simp] theorem releaseStorage_cmd (s : State) : (releaseStorage s).cmd = s.cmd := rfl
@[simp] theorem releaseStorage_rsp (s : State) : (releaseStorage s).rsp = s.rsp := rfl
@[simp] theorem releaseStorage_rst (s : State) : (releaseStorage s).rst = s.rst := rfl
@[simp] theorem releaseStorage_draws (s : State) : (releaseStorage s).draws = s.draws + 1 := rfl

/-! ### hardwareReset -/

@[simp] theorem hardwareReset_cfg (s : State) : (hardwareReset s).cfg = s.cfg := rfl
@[simp] theorem hardwareReset_LIFE (s : State) : (hardwareReset s).LIFE = .NONE := rfl
@[simp] theorem hardwareReset_NS (s : State) : (hardwareReset s).NS = Config.freeNS s.draws := rfl
@[simp] theorem hardwareReset_K (s : State) : (hardwareReset s).K = Config.freeK s.draws := rfl
@[simp] theorem hardwareReset_G (s : State) : (hardwareReset s).G = container s.cfg (Config.freeG s.draws) := rfl
@[simp] theorem hardwareReset_COEF (s : State) : (hardwareReset s).COEF = unspecifiedMemory s.cfg (5 * s.cfg.NS_MAX) (Config.freeCOEF s.draws) := rfl
@[simp] theorem hardwareReset_DLY (s : State) : (hardwareReset s).DLY = unspecifiedMemory s.cfg (4 * s.cfg.NS_MAX) (Config.freeDLY s.draws) := rfl
@[simp] theorem hardwareReset_cmd (s : State) : (hardwareReset s).cmd = [] := rfl
@[simp] theorem hardwareReset_rsp (s : State) : (hardwareReset s).rsp = [] := rfl
@[simp] theorem hardwareReset_rst (s : State) : (hardwareReset s).rst = s.rst := rfl
@[simp] theorem hardwareReset_draws (s : State) : (hardwareReset s).draws = s.draws + 1 := rfl

/-! ### buildState -/

@[simp] theorem buildState_cfg (ns : BitVec 8) (k : BitVec 16) (p : List Word) (s : State) : (buildState ns k p s).cfg = s.cfg := rfl
@[simp] theorem buildState_LIFE (ns : BitVec 8) (k : BitVec 16) (p : List Word) (s : State) : (buildState ns k p s).LIFE = .CREATED := rfl
@[simp] theorem buildState_NS (ns : BitVec 8) (k : BitVec 16) (p : List Word) (s : State) : (buildState ns k p s).NS = ns := rfl
@[simp] theorem buildState_K (ns : BitVec 8) (k : BitVec 16) (p : List Word) (s : State) : (buildState ns k p s).K = k := rfl
@[simp] theorem buildState_G (ns : BitVec 8) (k : BitVec 16) (p : List Word) (s : State) : (buildState ns k p s).G = qFromInt s.cfg k.toNat := rfl
@[simp] theorem buildState_COEF (ns : BitVec 8) (k : BitVec 16) (p : List Word) (s : State) : (buildState ns k p s).COEF = memWriteBlock s.COEF (coefAddr 0 0) (coefficientOperands s.cfg p) := rfl
@[simp] theorem buildState_DLY (ns : BitVec 8) (k : BitVec 16) (p : List Word) (s : State) : (buildState ns k p s).DLY = clearDelays s.DLY ns.toNat := rfl
@[simp] theorem buildState_cmd (ns : BitVec 8) (k : BitVec 16) (p : List Word) (s : State) : (buildState ns k p s).cmd = s.cmd := rfl
@[simp] theorem buildState_rsp (ns : BitVec 8) (k : BitVec 16) (p : List Word) (s : State) : (buildState ns k p s).rsp = s.rsp := rfl
@[simp] theorem buildState_rst (ns : BitVec 8) (k : BitVec 16) (p : List Word) (s : State) : (buildState ns k p s).rst = s.rst := rfl
@[simp] theorem buildState_draws (ns : BitVec 8) (k : BitVec 16) (p : List Word) (s : State) : (buildState ns k p s).draws = s.draws := rfl

/-! ### execIllegal -/

@[simp] theorem execIllegal_cfg (h : Word) (s : State) : (execIllegal h s).cfg = s.cfg := rfl
@[simp] theorem execIllegal_LIFE (h : Word) (s : State) : (execIllegal h s).LIFE = s.LIFE := rfl
@[simp] theorem execIllegal_NS (h : Word) (s : State) : (execIllegal h s).NS = s.NS := rfl
@[simp] theorem execIllegal_K (h : Word) (s : State) : (execIllegal h s).K = s.K := rfl
@[simp] theorem execIllegal_G (h : Word) (s : State) : (execIllegal h s).G = s.G := rfl
@[simp] theorem execIllegal_COEF (h : Word) (s : State) : (execIllegal h s).COEF = s.COEF := rfl
@[simp] theorem execIllegal_DLY (h : Word) (s : State) : (execIllegal h s).DLY = s.DLY := rfl
@[simp] theorem execIllegal_cmd (h : Word) (s : State) : (execIllegal h s).cmd = s.cmd := rfl
@[simp] theorem execIllegal_rsp (h : Word) (s : State) : (execIllegal h s).rsp = s.rsp ++ (Response.mk (opcField h) .ILLEGAL_CMD []).words := rfl
@[simp] theorem execIllegal_rst (h : Word) (s : State) : (execIllegal h s).rst = s.rst := rfl
@[simp] theorem execIllegal_draws (h : Word) (s : State) : (execIllegal h s).draws = s.draws := rfl

/-! ### State.resetOf -/

@[simp] theorem State.resetOf_cfg (c : Config) : (State.resetOf c).cfg = c := rfl
@[simp] theorem State.resetOf_LIFE (c : Config) : (State.resetOf c).LIFE = .NONE := rfl
@[simp] theorem State.resetOf_NS (c : Config) : (State.resetOf c).NS = 0#8 := rfl
@[simp] theorem State.resetOf_K (c : Config) : (State.resetOf c).K = 0#16 := rfl
@[simp] theorem State.resetOf_G (c : Config) : (State.resetOf c).G = 0#32 := rfl
@[simp] theorem State.resetOf_COEF (c : Config) : (State.resetOf c).COEF = List.replicate (5 * c.NS_MAX) 0#32 := rfl
@[simp] theorem State.resetOf_DLY (c : Config) : (State.resetOf c).DLY = List.replicate (4 * c.NS_MAX) 0#32 := rfl
@[simp] theorem State.resetOf_cmd (c : Config) : (State.resetOf c).cmd = [] := rfl
@[simp] theorem State.resetOf_rsp (c : Config) : (State.resetOf c).rsp = [] := rfl
@[simp] theorem State.resetOf_rst (c : Config) : (State.resetOf c).rst = false := rfl
@[simp] theorem State.resetOf_draws (c : Config) : (State.resetOf c).draws = 0 := rfl

end Sys2Proof.Machine
end

