-- ==== Sys2Proof/Laws/Commands.lean ====
section
/-!
SUPPORT. Laws/Commands.lean: for each check when it passes, and for each meaning everything it can answer
(R106 to R110), and that no command depends on what the streams hold (R34).
-/

namespace Sys2Proof.Machine

theorem live_iff (l : Life) : l.live = true ↔ l = .CREATED ∨ l = .EXECUTING := by cases l <;> simp [Life.live]

theorem not_live_iff (l : Life) : l.live = false ↔ l = .NONE ∨ l = .DESTROYED := by cases l <;> simp [Life.live]

/-- BUILD's checks all pass (R106). -/
theorem buildCheck_none_iff (c : Config) (ns : BitVec 8) (k : BitVec 16) (l : Life) :
    buildCheck c ns k l = none ↔
      2 ≤ k.toNat ∧ k.toNat ≤ K_MAX c ∧ 1 ≤ ns.toNat ∧ ns.toNat ≤ c.NS_MAX ∧ l.live = false := by
  unfold buildCheck
  split_ifs <;> (simp_all; try omega)

theorem handleCheck_none_iff (l : Life) : handleCheck l = none ↔ l.live = true := by cases l <;> simp [handleCheck, Life.live]

theorem execCheck_none_iff (l : Life) (ns : BitVec 8) : execCheck l ns = none ↔ l.live = true ∧ ns.toNat ≠ 0 := by
  cases l <;> simp [execCheck, Life.live]

/-- No check answers `OK`: a check either passes or names an error (R134). -/
theorem buildCheck_ne_OK {c : Config} {ns : BitVec 8} {k : BitVec 16} {l : Life} {e : Status}
    (h : buildCheck c ns k l = some e) : e ≠ .OK := by
  unfold buildCheck at h
  split_ifs at h <;> (simp_all; try (subst h; decide))

theorem handleCheck_some {l : Life} {e : Status} (h : handleCheck l = some e) : e = .USAGE_ERR_HANDLE := by
  cases l <;> simp_all [handleCheck, Life.live]

theorem execCheck_some {l : Life} {ns : BitVec 8} {e : Status} (h : execCheck l ns = some e) :
    e = .USAGE_ERR_HANDLE ∨ e = .USAGE_ERR_EMPTY := by
  unfold execCheck at h
  split_ifs at h <;> simp_all

/-- Everything BUILD can answer on a well-formed frame (R106). -/
theorem execBuild_eq {ns : BitVec 8} {k : BitVec 16} {p : List Word} (hp : p.length = 5 * ns.toNat) (s : State) :
    execBuild ns k p s = .next (match buildCheck s.cfg ns k s.LIFE with
      | some e => raiseError Op.BUILD.code e s
      | none => respond Op.BUILD.code .OK [] (buildState ns k p s)) := by
  unfold execBuild
  rw [if_pos hp]
  cases buildCheck s.cfg ns k s.LIFE <;> rfl

/-- If BUILD answers a next state, it is one of two (R106). -/
theorem execBuild_cases {ns : BitVec 8} {k : BitVec 16} {p : List Word} {s t : State}
    (h : execBuild ns k p s = .next t) : p.length = 5 * ns.toNat ∧
      ((∃ e, buildCheck s.cfg ns k s.LIFE = some e ∧ t = raiseError Op.BUILD.code e s) ∨
       (buildCheck s.cfg ns k s.LIFE = none ∧ t = respond Op.BUILD.code .OK [] (buildState ns k p s))) := by
  by_cases hp : p.length = 5 * ns.toNat
  · rw [execBuild_eq hp] at h
    refine ⟨hp, ?_⟩
    cases hc : buildCheck s.cfg ns k s.LIFE with
    | none => right; exact ⟨rfl, by simpa [hc] using h.symm⟩
    | some e => left; exact ⟨e, rfl, by simpa [hc] using h.symm⟩
  · simp [execBuild, hp] at h

/-- The state a successful EXEC leaves (R107). -/
abbrev execOk (x : Cplx) (s : State) : State :=
  respond Op.EXEC.code .OK (execPayload x s) { s with DLY := (execPasses x s).2, LIFE := .EXECUTING }

/-- The state a successful RESET leaves (R108). -/
abbrev resetOk (s : State) : State :=
  respond Op.RESET.code .OK [] { s with DLY := clearDelays s.DLY s.NS.toNat, LIFE := .EXECUTING }

/-- The state a successful DESTROY leaves (R109). -/
abbrev destroyOk (s : State) : State :=
  respond Op.DESTROY.code .OK [] { releaseStorage s with LIFE := .DESTROYED }

/-- EXEC on a live cascade with its sections in the space (R107). -/
theorem execExec_live {s : State} (re im : Word) (hl : s.LIFE.live = true) (h0 : s.NS.toNat ≠ 0)
    (hn : s.NS.toNat ≤ s.cfg.NS_MAX) : execExec re im s = .next (execOk (sampleOperand s.cfg re im) s) := by
  simp only [execExec, (execCheck_none_iff _ _).2 ⟨hl, h0⟩]
  rw [if_neg (by omega)]

theorem execExec_notLive {s : State} (re im : Word) (hl : s.LIFE.live = false) :
    execExec re im s = .next (raiseError Op.EXEC.code .USAGE_ERR_HANDLE s) := by
  simp [execExec, execCheck, hl]

/-- If EXEC answers a next state, it is one of two (R107). -/
theorem execExec_cases {re im : Word} {s t : State} (h : execExec re im s = .next t) :
    (∃ e, execCheck s.LIFE s.NS = some e ∧ t = raiseError Op.EXEC.code e s) ∨
    (s.LIFE.live = true ∧ s.NS.toNat ≠ 0 ∧ s.NS.toNat ≤ s.cfg.NS_MAX ∧
      t = execOk (sampleOperand s.cfg re im) s) := by
  cases hc : execCheck s.LIFE s.NS with
  | some e => left; exact ⟨e, rfl, by simpa [execExec, hc] using h.symm⟩
  | none =>
    right
    obtain ⟨hl, h0⟩ := (execCheck_none_iff _ _).1 hc
    by_cases hn : s.NS.toNat ≤ s.cfg.NS_MAX
    · rw [execExec_live re im hl h0 hn] at h
      exact ⟨hl, h0, hn, by simpa using h.symm⟩
    · simp only [execExec, hc] at h
      rw [if_pos (by omega)] at h
      cases h

theorem execReset_live {s : State} (hl : s.LIFE.live = true) (hn : s.NS.toNat ≤ s.cfg.NS_MAX) :
    execReset s = .next (resetOk s) := by
  simp only [execReset, (handleCheck_none_iff _).2 hl]
  rw [if_neg (by omega)]

theorem execReset_notLive {s : State} (hl : s.LIFE.live = false) :
    execReset s = .next (raiseError Op.RESET.code .USAGE_ERR_HANDLE s) := by simp [execReset, handleCheck, hl]

/-- If RESET answers a next state, it is one of two (R108). -/
theorem execReset_cases {s t : State} (h : execReset s = .next t) :
    (s.LIFE.live = false ∧ t = raiseError Op.RESET.code .USAGE_ERR_HANDLE s) ∨
    (s.LIFE.live = true ∧ s.NS.toNat ≤ s.cfg.NS_MAX ∧ t = resetOk s) := by
  cases hl : s.LIFE.live with
  | false => left; rw [execReset_notLive hl] at h; exact ⟨rfl, by simpa using h.symm⟩
  | true =>
    right
    by_cases hn : s.NS.toNat ≤ s.cfg.NS_MAX
    · rw [execReset_live hl hn] at h
      exact ⟨rfl, hn, by simpa using h.symm⟩
    · simp only [execReset, (handleCheck_none_iff _).2 hl] at h
      rw [if_pos (by omega)] at h
      cases h

theorem execDestroy_live {s : State} (hl : s.LIFE.live = true) : execDestroy s = .next (destroyOk s) := by
  simp only [execDestroy, (handleCheck_none_iff _).2 hl]

theorem execDestroy_notLive {s : State} (hl : s.LIFE.live = false) :
    execDestroy s = .next (raiseError Op.DESTROY.code .USAGE_ERR_HANDLE s) := by simp [execDestroy, handleCheck, hl]

/-- If DESTROY answers a next state, it is one of two (R109). -/
theorem execDestroy_cases {s t : State} (h : execDestroy s = .next t) :
    (s.LIFE.live = false ∧ t = raiseError Op.DESTROY.code .USAGE_ERR_HANDLE s) ∨
    (s.LIFE.live = true ∧ t = destroyOk s) := by
  cases hl : s.LIFE.live with
  | false => left; rw [execDestroy_notLive hl] at h; exact ⟨rfl, by simpa using h.symm⟩
  | true => right; rw [execDestroy_live hl] at h; exact ⟨rfl, by simpa using h.symm⟩

/-! ### Commands and the streams (R34, R51) -/

/-- A command changes the command stream not at all and only adds to the response stream. -/
theorem exec_keeps_streams {i : Instr} {s t : State} (h : exec i s = .next t) :
    t.cmd = s.cmd ∧ s.rsp <+: t.rsp ∧ t.rst = s.rst ∧ t.cfg = s.cfg := by
  cases i with
  | build ns k p =>
    obtain ⟨-, ⟨e, -, rfl⟩ | ⟨-, rfl⟩⟩ := execBuild_cases h <;> exact ⟨rfl, List.prefix_append _ _, rfl, rfl⟩
  | exec re im =>
    rcases execExec_cases h with ⟨e, -, rfl⟩ | ⟨-, -, -, rfl⟩ <;> exact ⟨rfl, List.prefix_append _ _, rfl, rfl⟩
  | reset => rcases execReset_cases h with ⟨-, rfl⟩ | ⟨-, -, rfl⟩ <;> exact ⟨rfl, List.prefix_append _ _, rfl, rfl⟩
  | destroy => rcases execDestroy_cases h with ⟨-, rfl⟩ | ⟨-, rfl⟩ <;> exact ⟨rfl, List.prefix_append _ _, rfl, rfl⟩

/-- What a command does to the registers and the memories, and what it answers, does not depend on what the streams
hold. -/
theorem exec_withStreams {i : Instr} {s t : State} (h : exec i s = .next t) (cmd rsp : List Word) :
    exec i { s with cmd := cmd, rsp := rsp } = .next { t with cmd := cmd, rsp := rsp ++ t.rsp.drop s.rsp.length } := by
  cases i with
  | build ns k p =>
    obtain ⟨hp, ⟨e, he, rfl⟩ | ⟨hc, rfl⟩⟩ := execBuild_cases h
    · exact (execBuild_eq hp _).trans (by simp [he, raiseError, respond])
    · exact (execBuild_eq hp _).trans (by simp [hc, respond, buildState])
  | exec re im =>
    rcases execExec_cases h with ⟨e, he, rfl⟩ | ⟨hl, h0, hn, rfl⟩
    · show execExec re im _ = _
      simp [execExec, he, raiseError, respond]
    · refine (execExec_live (s := { s with cmd := cmd, rsp := rsp }) re im hl h0 hn).trans ?_
      simp [execOk, respond]
      exact ⟨rfl, rfl⟩
  | reset =>
    rcases execReset_cases h with ⟨hl, rfl⟩ | ⟨hl, hn, rfl⟩
    · exact (execReset_notLive (s := { s with cmd := cmd, rsp := rsp }) hl).trans (by simp [raiseError, respond])
    · exact (execReset_live (s := { s with cmd := cmd, rsp := rsp }) hl hn).trans (by simp [respond])
  | destroy =>
    rcases execDestroy_cases h with ⟨hl, rfl⟩ | ⟨hl, rfl⟩
    · exact (execDestroy_notLive (s := { s with cmd := cmd, rsp := rsp }) hl).trans (by simp [raiseError, respond])
    · exact (execDestroy_live (s := { s with cmd := cmd, rsp := rsp }) hl).trans
        (by simp [destroyOk, respond, releaseStorage])

end Sys2Proof.Machine
end

