-- ==== Sys2Proof/Laws/Cost.lean ====
section
/-!
SUPPORT. Laws/Cost.lean: counting changes no value (R103, R160).
-/

namespace Sys2Proof.Machine

/-- Counting the lines of R97 leaves the words they compute. -/
@[simp] theorem countedLaneProgram_fst (c : Config) (ops : List LaneOp) (env : LaneReg → Word) (n : OpCount) :
    (countedLaneProgram c ops env n).1 = runLaneProgram c ops env := by
  induction ops generalizing env n with
  | nil => rfl
  | cons o os ih => rw [countedLaneProgram, ih, runLaneProgram]

/-- The count is one tick a line, whatever the words. -/
@[simp] theorem countedLaneProgram_snd (c : Config) (ops : List LaneOp) (env : LaneReg → Word) (n : OpCount) :
    (countedLaneProgram c ops env n).2 = ops.foldl (fun m o => m.tick o.prim) n := by
  induction ops generalizing env n with
  | nil => rfl
  | cons o os ih => rw [countedLaneProgram, ih, List.foldl_cons]

/-- Scaling is `cscale` (R88). -/
@[simp] theorem countedScale_fst (c : Config) (g : Word) (z : Cplx) (n : OpCount) :
    (countedScale c g z n).1 = cscale c g z := rfl

/-- The counted gain is the output gain (R113). -/
@[simp] theorem countedGain_fst (c : Config) (g : Word) (zs : List Cplx) (n : OpCount) :
    (countedGain c g zs n).1 = outputGain c g zs := by
  induction zs generalizing n with
  | nil => rfl
  | cons z zs ih => simp [countedGain, ih, outputGain]

end Sys2Proof.Machine
end

