-- ==== Sys2Proof/Laws/Decode.lean ====
section
/-!
SUPPORT. Laws/Decode.lean: header fields, the row a header selects, and what the decoder can answer (R45 to R57).
-/

namespace Sys2Proof

theorem mask_opcode_iff (h : Word) : h &&& 0xFF000000#32 = 0x01000000#32 ↔ opcField h = 0x01#8 := by
  constructor
  · intro e
    have := congrArg (fun w => w.extractLsb' 24 8) e
    have hm : (h &&& 0xFF000000#32).extractLsb' 24 8 = h.extractLsb' 24 8 := by
      rw [BitVec.extractLsb'_and]; exact BitVec.and_allOnes
    simpa [opcField, hm] using this
  · intro e
    have hb : ∀ i < 8, h.getLsbD (24 + i) = (0x01#8).getLsbD i := by
      intro i hi
      have := congrArg (fun w => w.getLsbD i) e
      simpa [opcField, BitVec.getLsbD_extractLsb', hi] using this
    apply BitVec.eq_of_getLsbD_eq
    intro i hi
    rcases Nat.lt_or_ge i 24 with h1 | h1
    · rw [BitVec.getLsbD_and]; interval_cases i <;> simp
    · obtain ⟨j, rfl⟩ := Nat.exists_eq_add_of_le h1
      rw [BitVec.getLsbD_and, hb j (by omega)]
      have : j < 8 := by omega
      interval_cases j <;> simp

theorem mask_all (h : Word) : h &&& 0xFFFFFFFF#32 = h := by
  simpa using BitVec.and_allOnes (x := h)

theorem headerWord_fields (h : Word) : headerWord (opcField h) (nsField h) (kField h) = h := by
  apply BitVec.eq_of_getLsbD_eq
  intro i hi
  unfold headerWord opcField nsField kField
  simp only [BitVec.getLsbD_append, BitVec.getLsbD_extractLsb']
  split_ifs with h1 h2
  · simp [h1]
  · simp [show i - 16 < 8 by omega, show 16 + (i - 16) = i by omega]
  · simp [show i - 16 - 8 < 8 by omega, show 24 + (i - 16 - 8) = i by omega]

@[simp] theorem opcField_headerWord (a b : BitVec 8) (k : BitVec 16) : opcField (headerWord a b k) = a := by
  apply BitVec.eq_of_getLsbD_eq
  intro i hi
  simp only [headerWord, opcField, BitVec.getLsbD_extractLsb', BitVec.getLsbD_append]
  simp [hi, show ¬ 24 + i < 16 by omega, show ¬ 24 + i - 16 < 8 by omega, show 24 + i - 16 - 8 = i by omega]
@[simp] theorem nsField_headerWord (a b : BitVec 8) (k : BitVec 16) : nsField (headerWord a b k) = b := by
  apply BitVec.eq_of_getLsbD_eq
  intro i hi
  simp only [headerWord, nsField, BitVec.getLsbD_extractLsb', BitVec.getLsbD_append]
  simp [hi]
@[simp] theorem kField_headerWord (a b : BitVec 8) (k : BitVec 16) : kField (headerWord a b k) = k := by
  apply BitVec.eq_of_getLsbD_eq
  intro i hi
  simp only [headerWord, kField, BitVec.getLsbD_extractLsb', BitVec.getLsbD_append]
  simp [hi]

theorem selectRow_eq (h : Word) : selectRow h =
    if opcField h = 0x01#8 then some .BUILD else if h = 0x02000000#32 then some .EXEC
    else if h = 0x03000000#32 then some .RESET else if h = 0x04000000#32 then some .DESTROY else none := by
  simp only [selectRow, opcodeMap, OpRow.covers, List.find?_cons, BitVec.ofNat_eq_ofNat, mask_all, ← mask_opcode_iff,
    List.find?_nil, ← beq_iff_eq (α := Word)]
  cases h &&& 0xFF000000#32 == 0x01000000#32
  · cases h == 0x02000000#32
    · cases h == 0x03000000#32
      · cases h == 0x04000000#32 <;> rfl
      · rfl
    · rfl
  · rfl

/-- Everything the decoder answers on a nonempty stream (R57). -/
theorem decode_cons (h : Word) (tl : List Word) : decode (h :: tl) =
    match selectRow h with
    | none => .illegal h tl
    | some op => if tl.length < payloadLength op h then .incomplete
        else .frame (assembleFrame op h (tl.take (payloadLength op h))) (tl.drop (payloadLength op h)) := rfl

/-- The four answers of the decoder on `h :: tl`, by the header alone (R54, R57). -/
theorem decode_cons_eq (h : Word) (tl : List Word) : decode (h :: tl) =
    if opcField h = 0x01#8 then
      if tl.length < 5 * (nsField h).toNat then .incomplete
      else .frame (.build (nsField h) (kField h) (tl.take (5 * (nsField h).toNat))) (tl.drop (5 * (nsField h).toNat))
    else if h = 0x02000000#32 then
      if tl.length < 2 then .incomplete else .frame (.exec (tl.getD 0 0) (tl.getD 1 0)) (tl.drop 2)
    else if h = 0x03000000#32 then .frame .reset tl
    else if h = 0x04000000#32 then .frame .destroy tl
    else .illegal h tl := by
  rw [decode_cons, selectRow_eq]
  by_cases h1 : opcField h = 0x01#8
  · rw [if_pos h1, if_pos h1]; rfl
  rw [if_neg h1, if_neg h1]
  by_cases h2 : h = 0x02000000#32
  · rw [if_pos h2, if_pos h2]
    rcases tl with _ | ⟨a, _ | ⟨b, tl⟩⟩ <;> rfl
  rw [if_neg h2, if_neg h2]
  by_cases h3 : h = 0x03000000#32
  · rw [if_pos h3, if_pos h3]; simp [payloadLength, assembleFrame]
  rw [if_neg h3, if_neg h3]
  by_cases h4 : h = 0x04000000#32
  · rw [if_pos h4, if_pos h4]; simp [payloadLength, assembleFrame]
  rw [if_neg h4, if_neg h4]

/-- A decoded command is well formed (R45). -/
theorem wellFormed_of_decode {ws rest : List Word} {i : Instr} (hd : decode ws = .frame i rest) : WellFormed i := by
  cases ws with
  | nil => simp [decode] at hd
  | cons h tl =>
    rw [decode_cons_eq] at hd
    split_ifs at hd with h1 h2 h3 h4 h5 h6 <;> simp only [Decoded.frame.injEq] at hd <;> obtain ⟨rfl, -⟩ := hd
    · simp [WellFormed, Instr.wellFormed]; omega
    all_goals rfl

/-- The length of a frame in channel words, by the header alone (R45). -/
theorem frameLength_eq (h : Word) : frameLength h =
    if opcField h = 0x01#8 then 1 + 5 * (nsField h).toNat else if h = 0x02000000#32 then 3 else 1 := by
  rw [frameLength, selectRow_eq]
  split_ifs <;> simp [payloadLength]

/-! ### A stream that grows (R34, R57) -/

/-- A whole frame stays the same frame when more words follow. -/
theorem decode_append_frame {ws rest : List Word} {i : Instr} (h : decode ws = .frame i rest) (more : List Word) :
    decode (ws ++ more) = .frame i (rest ++ more) := by
  cases ws with
  | nil => cases h
  | cons w tl =>
    simp only [decode, List.cons_append] at *
    cases hs : selectRow w with
    | none => simp [hs] at h
    | some op =>
      simp only [hs] at h ⊢
      split at h
      · cases h
      · rw [if_neg (by simp; omega)]
        simp only [Decoded.frame.injEq] at h ⊢
        rw [List.take_append_of_le_length (by omega), List.drop_append_of_le_length (by omega), h.1, h.2]
        simp

/-- An illegal header stays illegal when more words follow. -/
theorem decode_append_illegal {ws rest : List Word} {w : Word} (h : decode ws = .illegal w rest) (more : List Word) :
    decode (ws ++ more) = .illegal w (rest ++ more) := by
  cases ws with
  | nil => cases h
  | cons w tl =>
    simp only [decode, List.cons_append] at *
    cases hs : selectRow w with
    | none => simp only [hs, Decoded.illegal.injEq] at h ⊢; simp [h]
    | some op => simp only [hs] at h; split at h <;> cases h

/-- A frame consumes at least its header. -/
theorem length_of_decode_frame {ws rest : List Word} {i : Instr} (h : decode ws = .frame i rest) :
    rest.length < ws.length := by
  cases ws with
  | nil => cases h
  | cons w tl =>
    simp only [decode] at h
    cases hs : selectRow w with
    | none => simp [hs] at h
    | some op =>
      simp only [hs] at h
      split at h
      · cases h
      · simp only [Decoded.frame.injEq] at h; rw [← h.2]; simp

/-- An illegal header is consumed. -/
theorem length_of_decode_illegal {ws rest : List Word} {w : Word} (h : decode ws = .illegal w rest) :
    rest.length < ws.length := by
  cases ws with
  | nil => cases h
  | cons w tl =>
    simp only [decode] at h
    cases hs : selectRow w with
    | none => simp [hs] at h; rw [← h.2]; simp
    | some op => simp only [hs] at h; split at h <;> cases h

end Sys2Proof
end

