-- ==== Sys2Proof/Laws/Ports.lean ====
section
/-!
SUPPORT. Laws/Ports.lean: when the block is idle and when it takes a word (R60, R155), reading a response frame back
(R51), and how long a response can be (R2, R52).
-/

namespace Sys2Proof.Machine

theorem State.commandPending_eq_false_iff (s : State) : s.commandPending = false ↔ decode s.cmd = .incomplete := by
  unfold State.commandPending
  cases decode s.cmd <;> simp

/-- The block is idle exactly when no whole command waits and no response word is undelivered (R60, R142). -/
theorem State.idle_iff (s : State) : s.idle = true ↔ decode s.cmd = .incomplete ∧ s.rsp = [] := by
  rw [← State.commandPending_eq_false_iff]
  simp [State.idle]

/-- When `cmd_ready` is 1 (R60, R142, R150, R155). -/
theorem portOut_cmdReady_iff (i : PortIn) (ready : Bool) (s : State) :
    (portOut i ready s).cmdReady = true ↔
      i.rst = false ∧ (s.idle = true ∨ (ready = true ∧ s.cmd.length < s.cfg.cmdBuf)) := by
  simp [portOut]

@[simp] theorem portOut_rspData_of_rst_false {i : PortIn} (h : i.rst = false) (ready : Bool) (s : State) :
    (portOut i ready s).rspData = s.rsp.head? := by simp [portOut, h]

@[simp] theorem portOut_rspValid_of_rst_false {i : PortIn} (h : i.rst = false) (ready : Bool) (s : State) :
    (portOut i ready s).rspValid = !s.rsp.isEmpty := by simp [portOut, h]

/-- The largest factor keeps `2 * K` inside the 16-bit `COUNT` (R2, R51). -/
theorem K_MAX_le (c : Config) : K_MAX c ≤ 32767 := min_le_right _ _

/-- A successful EXEC answers `2 * K` payload words (R52). -/
@[simp] theorem execPayload_length (x : Cplx) (s : State) : (execPayload x s).length = 2 * s.K.toNat := by
  simp [execPayload, outputGain, execPasses, runPasses_length]

/-- The host reads a response frame off the stream whole, whatever follows it (R51). -/
theorem takeResponse_words (opc st : BitVec 8) (p rest : List Word) (hp : p.length < 2 ^ 16) :
    takeResponse (((opc ++ st ++ BitVec.ofNat 16 p.length : BitVec 32) :: p) ++ rest) = some (⟨opc, st, p⟩, rest) := by
  have hk := kField_headerWord opc st (BitVec.ofNat 16 p.length)
  have hcount : rspCount (opc ++ st ++ BitVec.ofNat 16 p.length : BitVec 32) = p.length := by
    unfold kField headerWord at hk; unfold rspCount; rw [hk]; simp; omega
  have hopc : (opc ++ st ++ BitVec.ofNat 16 p.length : BitVec 32).extractLsb' 24 8 = opc := opcField_headerWord opc st _
  have hst : (opc ++ st ++ BitVec.ofNat 16 p.length : BitVec 32).extractLsb' 16 8 = st := nsField_headerWord opc st _
  rw [List.cons_append, takeResponse, hcount, hopc, hst, if_neg (by simp)]
  simp

end Sys2Proof.Machine
end

