-- ==== Sys2Proof/Laws/Step.lean ====
section
/-!
SUPPORT. Laws/Step.lean: everything one step can do (R5, R57, R105, R150, R155).
-/

namespace Sys2Proof.Machine

/-- The engine is not stalled exactly when the response channel holds every undelivered word (R155). -/
theorem State.stalled_eq_false_iff (s : State) : s.stalled = false ↔ s.rsp.length ≤ s.cfg.rspBuf := by
  simp [State.stalled]

/-- With nothing undelivered the engine is never stalled, whatever the buffering (R155). -/
@[simp] theorem State.stalled_of_rsp_nil {s : State} (h : s.rsp = []) : s.stalled = false := by simp [State.stalled, h]

/-- The stall looks at the response stream and the buffering only. -/
theorem State.stalled_congr {s t : State} (hc : t.cfg = s.cfg) (hr : t.rsp = s.rsp) : t.stalled = s.stalled := by
  simp [State.stalled, hc, hr]

/-- If a step answers a next state, it is a hardware reset, a stall, a command, an illegal header or a wait. -/
theorem step_cases {s t : State} (h : step s = .next t) :
    (s.rst = true ∧ t = hardwareReset s) ∨
    (s.rst = false ∧ s.stalled = true ∧ t = s) ∨
    (s.rst = false ∧ s.stalled = false ∧ ∃ i rest, decode s.cmd = .frame i rest ∧ WellFormed i ∧
      exec i { s with cmd := rest } = .next t) ∨
    (s.rst = false ∧ s.stalled = false ∧ ∃ w rest, decode s.cmd = .illegal w rest ∧
      t = execIllegal w { s with cmd := rest }) ∨
    (s.rst = false ∧ s.stalled = false ∧ decode s.cmd = .incomplete ∧ t = s) := by
  unfold step at h
  cases hr : s.rst with
  | true => left; exact ⟨rfl, by simpa [hr] using h.symm⟩
  | false =>
    right
    cases hst : s.stalled with
    | true => left; exact ⟨rfl, rfl, by simpa [hr, hst] using h.symm⟩
    | false =>
      right
      cases hd : decode s.cmd with
      | frame i rest =>
        left; exact ⟨rfl, rfl, i, rest, rfl, wellFormed_of_decode hd, by simpa [hr, hst, hd] using h⟩
      | illegal w rest => right; left; exact ⟨rfl, rfl, w, rest, rfl, by simpa [hr, hst, hd] using h.symm⟩
      | incomplete => right; right; exact ⟨rfl, rfl, rfl, by simpa [hr, hst, hd] using h.symm⟩

/-- A step while the response is not accepted (R155). -/
theorem step_stalled {s : State} (hr : s.rst = false) (hst : s.stalled = true) : step s = .next s := by
  simp [step, hr, hst]

/-- A step that runs a command (R105). -/
theorem step_frame {s : State} {i : Instr} {rest : List Word} (hr : s.rst = false) (hst : s.stalled = false)
    (hd : decode s.cmd = .frame i rest) : step s = exec i { s with cmd := rest } := by simp [step, hr, hst, hd]

/-- A step that answers an illegal header (R55, R110). -/
theorem step_illegal {s : State} {w : Word} {rest : List Word} (hr : s.rst = false) (hst : s.stalled = false)
    (hd : decode s.cmd = .illegal w rest) : step s = .next (execIllegal w { s with cmd := rest }) := by
  simp [step, hr, hst, hd]

/-- A step that waits for the rest of a frame (R57, R161). -/
theorem step_incomplete {s : State} (hr : s.rst = false) (hd : decode s.cmd = .incomplete) : step s = .next s := by
  cases hst : s.stalled <;> simp [step, hr, hst, hd]

/-- The invariant looks only at the parameters, the registers and the memories. -/
theorem Inv.congr {s t : State} (h : Inv s) (hc : t.cfg = s.cfg) (hl : t.LIFE = s.LIFE) (hn : t.NS = s.NS)
    (hk : t.K = s.K) (hg : t.G = s.G) (hco : t.COEF = s.COEF) (hd : t.DLY = s.DLY) : Inv t := by
  obtain ⟨h1, h2, h3, h4⟩ := h
  refine ⟨by rw [hc, hco]; exact h1, by rw [hc, hd]; exact h2, by rw [hc, hg]; exact h3, fun hl' => ?_⟩
  obtain ⟨a, b, c, d, e⟩ := h4 (hl ▸ hl')
  exact ⟨by rw [hn]; exact a, by rw [hn, hc]; exact b, by rw [hk]; exact c, by rw [hk, hc]; exact d,
    by rw [hg, hk, hc]; exact e⟩

theorem Inv.withCmd {s : State} (h : Inv s) (rest : List Word) : Inv { s with cmd := rest } :=
  h.congr rfl rfl rfl rfl rfl rfl rfl

/-- One more step of a run, when the step answers a next state. -/
theorem run_succ {s t : State} {n : Nat} (h : step s = .next t) :
    Host.Core.run Sys2Proof.core (n + 1) s = Host.Core.run Sys2Proof.core n t := by
  have general : ∀ (M : Host.Core) (u v : M.State), M.step u = .next v → M.run (n + 1) u = M.run n v := by
    intro M u v hu; simp only [Host.Core.run, hu]
  exact general Sys2Proof.core s t h

end Sys2Proof.Machine
end

