-- ==== Sys2Proof/Laws/Link.lean ====
section
/-!
SUPPORT. Laws/Link.lean: the words a host takes (R125), and what one event of a link does (R60, R155, R161).
-/

namespace Sys2Proof.Machine

/-- Undelivered words come before everything the run adds (R34, R51). -/
theorem hostRun_withRsp (n : Nat) (s : State) (r : List Word) :
    hostRun n { s with rsp := r } = (hostRun n { s with rsp := [] }).map (fun x => (x.1, r ++ x.2)) := by
  cases n with
  | zero => simp [hostRun]
  | succ n =>
    simp only [hostRun]
    cases step { s with rsp := [] } with
    | next t => cases hostRun n t <;> simp
    | fault f => rfl
    | refused f => rfl

/-- One more step of a run with a reading host, when the step answers a next state. -/
theorem hostRun_succ {s t : State} (n : Nat) (h : step { s with rsp := [] } = .next t) :
    hostRun (n + 1) s = (hostRun n t).map (fun r => (r.1, s.rsp ++ r.2)) := by simp [hostRun, h]

/-- A run ends with every response word taken (R125). -/
theorem hostRun_rsp {n : Nat} {s t : State} {words : List Word} (h : hostRun n s = some (t, words)) : t.rsp = [] := by
  induction n generalizing s words with
  | zero => simp only [hostRun, Option.some.injEq, Prod.mk.injEq] at h; rw [← h.1]
  | succ n ih =>
    simp only [hostRun] at h
    split at h
    · rw [Option.map_eq_some_iff] at h
      obtain ⟨r, hr, he⟩ := h
      obtain ⟨rfl, rfl⟩ := Prod.mk.inj he
      exact ih hr
    · cases h
    · cases h

/-- An engine event whose step answers a next state. -/
theorem Link.next_engine {l : Link} {t : State} (h : step l.block = .next t) : l.next .engine = { l with block := t } := by
  simp [Link.next, h]

/-- An edge that moves no word leaves the link as it is (R60). -/
theorem Link.next_edge_quiet {l : Link} {offer accept ready : Bool} (hr : l.block.rst = false)
    (hc : offer = false ∨ l.toSend = [] ∨ (portOut (l.portIn offer accept) ready l.block).cmdReady = false)
    (ha : accept = false ∨ l.block.rsp = []) : l.next (.edge offer accept ready) = l := by
  obtain ⟨⟨cfg, life, ns, k, g, coef, dly, cmd, rsp, rst, draws⟩, toSend, taken⟩ := l
  simp only at hr ha hc
  subst hr
  rcases ha with rfl | rfl <;> rcases hc with rfl | rfl | hc <;> simp_all [Link.next, portEdge, Link.portIn, portOut]

end Sys2Proof.Machine
end

