-- ==== Sys2Proof/Laws/Listing.lean ====
section
/-!
SUPPORT. Laws/Listing.lean: when the operands of a listing line assemble, and to what (R58).
-/

namespace Sys2Proof.Machine

/-- Operands assemble to exactly the words their literals stand for, in order; none assembles if one is illegal. -/
theorem assembleLiterals_eq_some_iff {c : Config} {ls : List Literal} {ws : List Word} :
    assembleLiterals c ls = some ws ↔ ws.map some = ls.map (assembleLiteral c) := by
  induction ls generalizing ws with
  | nil => cases ws <;> simp [assembleLiterals]
  | cons r rs ih =>
    simp only [assembleLiterals]
    cases h1 : assembleLiteral c r with
    | none => cases ws <;> simp [h1]
    | some w =>
      cases h2 : assembleLiterals c rs with
      | none =>
        cases ws with
        | nil => simp
        | cons v vs =>
          simp only [List.map_cons, h1, List.cons.injEq, Option.some.injEq, reduceCtorEq, false_iff, not_and]
          intro _ h
          rw [← ih, h2] at h
          cases h
      | some us =>
        simp only [Option.some.injEq, List.map_cons, h1, ← ih.1 h2]
        cases ws with
        | nil => simp
        | cons v vs =>
          simp only [List.cons.injEq, List.map_cons, Option.some.injEq]
          rw [List.map_inj_right (by simp)]
          constructor <;> rintro ⟨rfl, rfl⟩ <;> simp

/-- The bracket groups of a line hold five operands each. -/
theorem length_flatMap_literals (gs : List BracketGroup) : (gs.flatMap BracketGroup.literals).length = 5 * gs.length := by
  induction gs with
  | nil => rfl
  | cons g gs ih => simp [ih, BracketGroup.literals]; omega

end Sys2Proof.Machine
end

