-- ==== Sys2Proof/Laws/PerInstr.lean ====
section
/-!
SUPPORT. Laws/PerInstr.lean: the family `FrameLength`: a well-formed command encodes to as many channel words as its
own header announces (R45).
-/

namespace Sys2Proof.Laws.FrameLength

/-- The words of a well-formed command are one header and the payload its header announces. -/
def Statement (i : Instr) : Prop := WellFormed i → (encode i).length = frameLength ((encode i).headD 0)

theorem build (ns : BitVec 8) (k : BitVec 16) (payload : List Word) : Statement (.build ns k payload) := by
  intro h
  have h' : payload.length = 5 * ns.toNat := by simpa [WellFormed, Instr.wellFormed] using h
  rw [frameLength_eq]
  simp [encode, Op.code, h']
  omega

theorem exec (re im : Word) : Statement (.exec re im) := by
  intro _
  have h : frameLength (headerWord Op.EXEC.code 0 0) = 3 := by decide
  exact h.symm

theorem reset : Statement .reset := by intro _; decide

theorem destroy : Statement .destroy := by intro _; decide

end Sys2Proof.Laws.FrameLength
end

