-- ==== Sys2Proof/Tests/Slice0.lean ====
section
/-!
SUPPORT. Tests/Slice0.lean: the WellFormed smoke tests, the vectors of spec/95_test_vectors.md, and, for every
obligation with hypotheses, a concrete case that meets them all. Expected values are the spec's own.
-/

namespace Sys2Proof.Machine.Tests

set_option Elab.async false

/-! ### Helpers -/

/-- The state an outcome holds; the reset state for a fault or a refusal. -/
def after : Host.Outcome State Fault Refusal → State
  | .next t => t
  | .fault _ => State.reset
  | .refused _ => State.reset

/-- The outcome is a next state. -/
def isNext : Host.Outcome State Fault Refusal → Bool
  | .next _ => true
  | .fault _ => false
  | .refused _ => false

theorem next_after {o : Host.Outcome State Fault Refusal} (h : isNext o = true) : o = .next (after o) := by
  cases o with
  | next t => rfl
  | fault r => simp [isNext] at h
  | refused r => simp [isNext] at h

/-- The configuration of section 2.9 of the vectors. -/
def small : Config := ⟨16, 12, .HALF_UP, 16, 0, 4, by decide⟩

/-- The reference configuration with the other rounding (R70). -/
def referenceTrunc : Config := { Config.reference with RND := .TRUNC }

/-- A live cascade of `ns` sections and factor `k`: the coefficient and delay words given, the unused words `pad`. -/
def cascade (c : Config) (ns : BitVec 8) (k : BitVec 16) (g : Word) (coef dly : List Word) (pad : Word) : State :=
  { State.resetOf c with
    LIFE := .EXECUTING
    NS := ns
    K := k
    G := g
    COEF := coef ++ List.replicate (5 * c.NS_MAX - coef.length) pad
    DLY := dly ++ List.replicate (4 * c.NS_MAX - dly.length) pad }

/-- The section of program P1: 0.5 0.5 0 -0.5 0. -/
def sectionP1 : List Word := [0x00800000, 0x00800000, 0x00000000, 0xFF800000, 0x00000000]

/-- Program P1 after line 2. -/
def p1 : State := cascade .reference 1 2 0x02000000 sectionP1 [0x00800000, 0xFFE00000, 0x01000000, 0xFFC00000] 0

/-- Program P2 after line 2. -/
def p2 : State :=
  cascade .reference 2 3 0x03000000
    [0x00800000, 0x00400000, 0x00000000, 0x00000000, 0x00400000,
     0x01000000, 0xFF000000, 0x00000000, 0x00800000, 0x00000000]
    [0xFF800000, 0xFFC00000, 0, 0, 0xFFC00000, 0xFFE00000, 0, 0] 0

/-- Program P1 in the configuration of section 2.9, after its EXEC. -/
def smallP1 : State :=
  cascade small 1 2 0x2000 [0x0800, 0x0800, 0, 0xFFFFF800, 0] [0x0800, 0xFFFFFE00, 0x1000, 0xFFFFFC00] 0

/-- Destroyed, and with the words of program P1 standing for the unspecified ones. -/
def destroyed : State := { p1 with LIFE := .DESTROYED }

/-- The words of a space are words of the configuration, by evaluation. -/
theorem wf_of {c : Config} {n : Nat} {m : Memory}
    (h : (m.length == n && m.all (fun w => container c w == w)) = true) : Memory.wf c n m := by
  simpa using h

theorem inv_of (s : State)
    (hc : (s.COEF.length == 5 * s.cfg.NS_MAX && s.COEF.all (fun w => container s.cfg w == w)) = true)
    (hd : (s.DLY.length == 4 * s.cfg.NS_MAX && s.DLY.all (fun w => container s.cfg w == w)) = true)
    (h : IsWord s.cfg s.G ∧ 1 ≤ s.NS.toNat ∧ s.NS.toNat ≤ s.cfg.NS_MAX ∧ 2 ≤ s.K.toNat ∧ s.K.toNat ≤ K_MAX s.cfg ∧
      s.G = qFromInt s.cfg s.K.toNat) : Inv s :=
  ⟨wf_of hc, wf_of hd, h.1, fun _ => ⟨h.2.1, h.2.2.1, h.2.2.2.1, h.2.2.2.2.1, h.2.2.2.2.2⟩⟩

theorem inv_p1 : Inv p1 := inv_of _ (by decide +kernel) (by decide +kernel) (by decide +kernel)
theorem inv_p2 : Inv p2 := inv_of _ (by decide +kernel) (by decide +kernel) (by decide +kernel)
theorem inv_smallP1 : Inv smallP1 := inv_of _ (by decide +kernel) (by decide +kernel) (by decide +kernel)
theorem inv_destroyed : Inv destroyed := inv_of _ (by decide +kernel) (by decide +kernel) (by decide +kernel)
theorem inv_reset (c : Config) : Inv (State.resetOf c) :=
  ⟨wf_replicate_zero c _ (isWord_zero c), wf_replicate_zero c _ (isWord_zero c), isWord_zero c,
    fun h => by simp [Life.live] at h⟩

/-! ### WellFormed -/

theorem test_wellFormed_refuses_a_short_build : ¬ WellFormed (.build 1 2 [0, 0, 0, 0]) := by decide
theorem test_wellFormed_refuses_a_long_build : ¬ WellFormed (.build 0 2 [0]) := by decide
theorem test_build_refuses_an_ill_formed_term : execBuild 1 2 [] State.reset = .refused .malformedFrame := by
  simp [execBuild]

/-! ### Encoding: words written out from R46 to R50, bit by bit -/

theorem test_decode_build_word :
    decode [0b00000001000000010000000000000010, 0x00800000, 0x00800000, 0, 0xFF800000, 0] =
      .frame (.build 1 2 sectionP1) [] := by decide
theorem test_decode_exec_word :
    decode [0b00000010000000000000000000000000, 0x01000000, 0xFFC00000] = .frame (.exec 0x01000000 0xFFC00000) [] := by
  decide
theorem test_decode_reset_word : decode [0b00000011000000000000000000000000] = .frame .reset [] := by decide
theorem test_decode_destroy_word : decode [0b00000100000000000000000000000000] = .frame .destroy [] := by decide
theorem test_decode_wide_fields :
    frameLength 0x0103FFFF = 16 ∧ nsField 0x0103FFFF = 3 ∧ kField 0x0103FFFF = 65535 := by decide
theorem test_illegal_headers :
    ([0x02000001, 0x03800000, 0x00000000, 0xFFFFFFFF, 0x05000000] : List Word).all
      (fun h => decode [h, 0x04000000] == .illegal h [0x04000000]) = true := by decide
theorem test_exec_waits_for_its_payload : decode [0x02000000, 0x01000000] = .incomplete := by decide
theorem test_encode_build : encode (.build 1 2 sectionP1) = 0x01010002 :: sectionP1 := by decide
theorem test_bytes : bytesOfWord 0xFFC00000 = [0x00, 0x00, 0xC0, 0xFF] := by decide
theorem test_decodeTableWord :
    decodeTableWord 32 0x01010002 = some (.build 1 2 [0, 0, 0, 0, 0]) ∧
    decodeTableWord 96 0xFFC000000100000002000000 = some (.exec 0x01000000 0xFFC00000) ∧
    decodeTableWord 32 0x03000000 = some .reset ∧ decodeTableWord 32 0x04000000 = some .destroy ∧
    decodeTableWord 32 0x02000001 = none := by decide
theorem test_withFetchWord_runs_the_frame :
    (after (step (State.reset.withFetchWord 32 0x01010002))).LIFE = .CREATED := by decide +kernel

/-! ### Scalar unit (sections 2.1 to 2.4, 2.9) -/

theorem test_qadd_qsub :
    ([(0x01000000, 0x01000000, 0x02000000, 0x00000000), (0xFFFFFFFF, 0x00000001, 0x00000000, 0xFFFFFFFE),
        (0x7FFFFFFF, 0x00000001, 0x7FFFFFFF, 0x7FFFFFFE), (0x80000000, 0xFFFFFFFF, 0x80000000, 0x80000001),
        (0x80000000, 0x80000000, 0x80000000, 0x00000000), (0x7FFFFFFF, 0x80000000, 0xFFFFFFFF, 0x7FFFFFFF),
        (0x80000000, 0x7FFFFFFF, 0xFFFFFFFF, 0x80000000), (0xFFFFFFFF, 0x80000000, 0x80000000, 0x7FFFFFFF)] :
        List (Word × Word × Word × Word)).all (fun r => decide (
      qadd .reference r.1 r.2.1 = r.2.2.1 ∧ qsub .reference r.1 r.2.1 = r.2.2.2)) = true := by decide +kernel
theorem test_qmul_quarter_ulps :
    qmul .reference 0x00C00000 3 = 2 ∧ qmul .reference 0x00C00000 0xFFFFFFFD = 0xFFFFFFFE ∧
    qmul referenceTrunc 0x00C00000 3 = 2 ∧ qmul referenceTrunc 0x00C00000 0xFFFFFFFD = 0xFFFFFFFD := by
  decide +kernel
theorem test_qmac_qmsu :
    ([(0x00480000, 0x00800000, 0x00C00000, 0x00A80000, 0xFFE80000, 0x00A80000, 0xFFE80000),
        (0x80000000, 0x80000000, 0x80000000, 0xFFFFFFFF, 0x80000000, 0xFFFFFFFF, 0x80000000),
        (0x00000000, 0x00000001, 0x00800000, 0x00000001, 0xFFFFFFFF, 0x00000000, 0x00000000),
        (0x00000000, 0xFFFFFFFF, 0x00800000, 0x00000000, 0x00000000, 0xFFFFFFFF, 0x00000001),
        (0xFFFFFFFB, 0xFFFFFFFD, 0x00800000, 0xFFFFFFFA, 0xFFFFFFFC, 0xFFFFFFF9, 0xFFFFFFFD)] :
        List (Word × Word × Word × Word × Word × Word × Word)).all (fun r => decide (
      qmac .reference r.1 r.2.1 r.2.2.1 = r.2.2.2.1 ∧ qmsu .reference r.1 r.2.1 r.2.2.1 = r.2.2.2.2.1 ∧
      qmac referenceTrunc r.1 r.2.1 r.2.2.1 = r.2.2.2.2.2.1 ∧
      qmsu referenceTrunc r.1 r.2.1 r.2.2.1 = r.2.2.2.2.2.2)) = true := by decide +kernel
theorem test_small_configuration :
    K_MAX small = 7 ∧ qadd small 0x7000 0x1000 = 0x7FFF ∧ qadd small 0x8000 0xFFFF = 0xFFFF8000 ∧
    qmul small 0xFFFF 0x0800 = 0 ∧ qmul small 0x2000 0xC000 = 0xFFFF8000 ∧ qmul small 0x0B50 0x0B50 = 0x0800 ∧
    val small 0xABCD1000 = 0x1000 ∧ container small 0x1234FC00 = 0xFFFFFC00 := by decide +kernel
theorem test_conversions :
    ([(1/2, 0x00800000, false), (-3/2, 0xFE800000, false), (3199999/100000, 0x1FFFFF58, false),
        (128, 0x7FFFFFFF, true), (-128, 0x80000000, false), (259891532474/1000000000000, 0x00428840, false),
        (1/2^25, 0x00000001, false), (-1/2^25, 0x00000000, false)] : List (Rat × Word × Bool)).all (fun r => decide (
      qFromReal .reference (.finite r.1) = some r.2.1 ∧ qOverflows .reference (.finite r.1) = r.2.2)) = true := by decide +kernel
theorem test_qFromInt : qFromInt .reference 127 = 0x7F000000 ∧ K_MAX .reference = 127 := by decide

/-! ### Complex unit and stage (sections 2.5, 2.6; R102 (d)) -/

theorem test_complex :
    cadd .reference ⟨0x7F000000, 0x80000000⟩ ⟨0x02000000, 0xFF000000⟩ = ⟨0x7FFFFFFF, 0x80000000⟩ ∧
    csub .reference ⟨0x7F000000, 0x80000000⟩ ⟨0x02000000, 0xFF000000⟩ = ⟨0x7D000000, 0x81000000⟩ ∧
    cscale .reference 0x03000000 ⟨0x2AAAAAAA, 0xD5555555⟩ = ⟨0x7FFFFFFE, 0x80000000⟩ ∧
    cmac .reference ⟨0x01000000, 0xFFC00000⟩ 0x00800000 ⟨0x00800000, 0x00C00000⟩ = ⟨0x01400000, 0x00200000⟩ ∧
    cmsu .reference ⟨0x01000000, 0xFFC00000⟩ 0x00800000 ⟨0x00800000, 0x00C00000⟩ = ⟨0x00C00000, 0xFF600000⟩ := by
  decide +kernel

/-- The coefficients of vectors SOS-1 and SOS-3. -/
def sos1 : Coefs := ⟨0x00400000, 0x00800000, 0x00400000, 0xFF000000, 0x00800000⟩

theorem test_sos1_trace :
    sosLaneTrace .reference sos1 0x00C00000 0xFF800000 0x00200000 =
      ⟨0xFF400000, 0x00E00000, 0xFFC00000, 0x01200000, 0x00480000, 0x00600000, 0x00A80000, 0xFFE00000,
        0x00880000⟩ := by decide +kernel
theorem test_sos1_result :
    sosLane .reference sos1 0x00C00000 0xFF800000 0x00200000 = ⟨0x00880000, 0x01200000, 0x00C00000⟩ := by
  decide +kernel
theorem test_sos2_saturates :
    sosLane .reference ⟨0x01000000, 0, 0, 0xFE800000, 0x01800000⟩ 0x64000000 0x64000000 0x32000000 =
      ⟨0, 0, 0x64000000⟩ := by decide +kernel
theorem test_unstable_pole_is_a_fixed_point :
    sosLane .reference ⟨0x01000000, 0, 0, 0xFE800000, 0⟩ 0x7FFFFFFF 0x7FFFFFFF 0 =
      ⟨0x7FFFFFFF, 0x7FFFFFFF, 0x7FFFFFFF⟩ ∧
    sosLane .reference ⟨0x01000000, 0, 0, 0xFE800000, 0⟩ 0x80000001 0x80000001 0 =
      ⟨0x80000001, 0x80000001, 0x80000001⟩ := by decide +kernel

/-! ### Commands, one step each (programs P1, P2, P5; sections 2.8, 2.9) -/

theorem test_build :
    let t := after (step { State.reset with cmd := 0x01010002 :: sectionP1 })
    t.LIFE = .CREATED ∧ t.NS = 1 ∧ t.K = 2 ∧ t.G = 0x02000000 ∧ t.COEF.take 5 = sectionP1 ∧ t.rsp = [0x01000000] := by
  decide +kernel
theorem test_build_error_priority :
    ([(0x01000000, 0, 0x01200000), (0x01000080, 0, 0x01210000), (0x01110080, 85, 0x01220000),
        (0x01110002, 85, 0x01230000), (0x01010002, 5, 0x01240000)] : List (Word × Nat × Word)).all (fun r => decide (
      after (step { p1 with cmd := r.1 :: List.replicate r.2.1 0 }) = { p1 with rsp := [r.2.2] })) = true := by decide +kernel
theorem test_exec_two_sections :
    let t := after (step { p2 with cmd := [0x02000000, 0xFF000000, 0x00000000] })
    t.rsp = [0x02000006, 0xFF400000, 0x00600000, 0x01B00000, 0x00180000, 0x00300000, 0xFFE80000] ∧
    t.DLY.take 8 = [0x00400000, 0, 0x00200000, 0x00100000, 0x00200000, 0, 0x00100000, 0x00080000] := by
  decide +kernel
theorem test_exec_small_configuration :
    let t := after (step { smallP1 with cmd := [0x02000000, 0, 0] })
    t.rsp = [0x02000004, 0x00000C00, 0xFFFFFD00, 0x00000600, 0xFFFFFE80] ∧
    t.DLY.take 4 = [0x0200, 0xFFFFFF80, 0x0400, 0xFFFFFF00] := by decide +kernel
theorem test_reset :
    let t := after (step { p1 with cmd := [0x03000000] })
    t.DLY.take 4 = [0, 0, 0, 0] ∧ t.LIFE = .EXECUTING ∧ t.COEF = p1.COEF ∧ t.rsp = [0x03000000] := by decide +kernel
theorem test_reset_needs_a_live_cascade :
    (after (step { State.reset with cmd := [0x03000000] })).rsp = [0x03300000] := by decide +kernel
theorem test_destroy :
    (after (exec .destroy p1)).LIFE = .DESTROYED ∧ (after (exec .destroy p1)).rsp = [0x04000000] := ⟨rfl, rfl⟩
theorem test_destroy_twice : (after (step { destroyed with cmd := [0x04000000] })).rsp = [0x04300000] := by
  decide +kernel
theorem test_illegal_header :
    after (step { p1 with cmd := [0x05000000] }) = { p1 with rsp := [0x05400000] } := by decide +kernel

/-! ### Ports and back-pressure (R60, R155) -/

/-- Program P1 in the small configuration, whose response channel holds 4 words, with `n` words undelivered. -/
def waiting (n : Nat) : State := { smallP1 with cmd := [0x03000000], rsp := List.replicate n 0 }

theorem test_engine_holds_while_a_response_is_not_accepted : step (waiting 5) = .next (waiting 5) := by
  simp [step, waiting, State.stalled, smallP1, small, cascade]
theorem test_engine_runs_once_the_response_is_accepted :
    (after (step (waiting 4))).rsp = [0, 0, 0, 0, 0x03000000] := by decide +kernel
theorem test_cmd_ready :
    (portOut ⟨false, true, 2, false⟩ false { p1 with cmd := [0x02000000, 1] }).cmdReady = true ∧
    (portOut ⟨false, true, 2, false⟩ false { p1 with cmd := [0x02000000, 1, 2] }).cmdReady = false ∧
    (portOut ⟨false, true, 2, false⟩ true { p1 with cmd := [0x02000000, 1, 2] }).cmdReady = true ∧
    (portOut ⟨false, true, 2, false⟩ true (waiting 1)).cmdReady = false := by decide +kernel

/-! ### Listing (R58) -/

theorem test_listing_build :
    assembleLine .reference (.build 2 none
      [⟨.real (1/2), .real (1/2), .real 0, .real (-1/2), .real 0⟩]) = some (0x01010002 :: sectionP1) := by
  decide +kernel
theorem test_listing_malformed_build :
    (assembleLine .reference (.build 2 (some 2)
      [⟨.real (1/2), .real (1/2), .real 0, .real (-1/2), .real 0⟩])).map decode = some .incomplete := by
  decide +kernel
theorem test_listing_overflow : assembleLine .reference (.exec (.real 128) (.raw 0)) = none := by decide +kernel

/-! ### For every obligation with hypotheses, a case that meets them -/

theorem test_witness_DecodeOfEncodeIsTheCommand :
    WellFormed (.build 1 2 sectionP1) ∧ WellFormed (.build 0 0 []) ∧
    WellFormed (.build 255 0xFFFF (List.replicate 1275 0)) ∧ WellFormed (.exec 1 2) := by decide +kernel
theorem test_witness_EncodeOfDecodeIsTheStream : decode (0x01010002 :: sectionP1) = .frame (.build 1 2 sectionP1) [] := by
  decide
theorem test_witness_HeaderSelectsTheOneMatchingRow :
    (List.replicate 1275 (0 : Word)).length = 5 * ((0x01FF0002 : Word).extractLsb' 16 8).toNat ∧
    (0x01FF0002 : Word) &&& 0xFF000000 = 0x01000000 ∧ (0x01000000 : Word) &&& 0xFF000000 = 0x01000000 := by
  decide +kernel
theorem test_witness_FrameLengthIsFixedByTheHeader :
    [(0 : Word)].length + 1 < frameLength 0x02000000 ∧ frameLength 0x02000000 ≤ [(0 : Word), 0].length + 1 ∧
    State.reset.cfg.NS_MAX < ((0x01110002 : Word).extractLsb' 16 8).toNat ∧
    (List.replicate 85 (0 : Word)).length = 5 * ((0x01110002 : Word).extractLsb' 16 8).toNat ∧
    State.reset.rst = false ∧ State.reset.stalled = false := by decide +kernel
theorem test_witness_IllegalHeaderChangesNothingElse :
    selectRow 0x05000000 = none ∧ selectRow 0x04000001 = none ∧ selectRow 0x00FFFFFF = none ∧ p1.rst = false ∧
    p1.stalled = false := by
  decide
theorem test_witness_StepRunsTheDecodedCommand :
    p1.rst = false ∧ decode [0x03000000, 0] = .frame .reset [0] ∧ decode [0x03000001] = .illegal 0x03000001 [] ∧
    decode [] = .incomplete ∧ decode [0x02000000, 7] = .incomplete ∧ p1.rsp.length ≤ p1.cfg.rspBuf ∧
    (waiting 5).rst = false ∧ (waiting 5).cfg.rspBuf < (waiting 5).rsp.length ∧
    (waiting 4).rsp.length ≤ (waiting 4).cfg.rspBuf ∧ decode (waiting 4).cmd = .frame .reset [] := by decide
theorem test_witness_ContainersIgnoreUpperBits :
    Inv smallP1 ∧ (0xABCD1000 : Word).setWidth smallP1.cfg.W = (0x00001000 : Word).setWidth smallP1.cfg.W ∧
    [0x0000F800, 0xFFFFF800].map (fun w : Word => w.setWidth smallP1.cfg.W) =
      [0x1234F800, 0x0000F800].map (fun w : Word => w.setWidth smallP1.cfg.W) ∧
    0x00001C00 ∈ execPayload (sampleOperand small 0x1000 0) smallP1 ∧
    smallP1.cfg.W ≤ 16 ∧ Inv p1 ∧ p1.cfg.W = 32 :=
  ⟨inv_smallP1, by decide, by decide, by decide +kernel, by decide, inv_p1, by decide⟩
theorem test_witness_SatClampsToTheWordRange : MINV .reference - 1 ≤ MAXV .reference + 1 := by decide
theorem test_witness_QaddIsTheExactSumClamped : IsWord .reference 0x80000000 ∧ IsWord small 0xFFFF8000 := by decide
theorem test_witness_RoundingIsTheNamedRule :
    Config.reference.RND = .HALF_UP ∧ referenceTrunc.RND = .TRUNC ∧ (-1 : Int) ≤ 0 := by decide
theorem test_witness_QmulRoundsThenClamps : IsWord .reference 0x7FFFFFFF ∧ IsWord small 0x7FFF := by decide
theorem test_witness_MacAndMsuClampTwice : IsWord referenceTrunc 0x80000000 ∧ IsWord small 0xFFFFFFFF := by decide
theorem test_witness_ScalarLawsHold :
    IsWord small 0xFFFF8000 ∧ val .reference 0x80000000 ≤ val .reference 0x7FFFFFFF ∧
    0 ≤ val .reference 0x00800000 ∧
    (MINV .reference ≤ val .reference 0x80000000 + val .reference 0 ∧
      val .reference 0x80000000 + val .reference 0 ≤ MAXV .reference) ∧
    (MINV .reference ≤ val .reference 0xFFFFFFFF - val .reference 0x80000000 ∧
      val .reference 0xFFFFFFFF - val .reference 0x80000000 ≤ MAXV .reference) ∧
    (val .reference 0x02000000 * val .reference 0xC0000000 = MINV .reference * 2 ^ Config.reference.F ∧
      MINV .reference ≤ MAXV .reference) := by decide +kernel
theorem test_witness_IntegerWordMultipliesExactly :
    MINV .reference ≤ 127 * 2 ^ Config.reference.F ∧ 127 * 2 ^ Config.reference.F ≤ MAXV .reference ∧
    MINV small ≤ -8 * 2 ^ small.F ∧ -8 * 2 ^ small.F ≤ MAXV small := by decide
theorem test_witness_ComplexOperationsActPerLane : IsWord .reference 0x80000000 ∧ IsWord small 0x7FFF := by decide
theorem test_witness_RealConversionsRoundToNearest :
    IsWord .reference 0x00428840 ∧ qOverflows .reference (.finite (-128)) = false ∧
    qOverflows .reference (.finite 128) = true ∧
    (MAXV .reference : Rat) + 1 ≤ 128 * 2 ^ Config.reference.F + 1 / 2 ∧
    -129 * 2 ^ Config.reference.F + 1 / 2 < (MINV .reference : Rat) := by decide +kernel

/-- Program P1's section as the host designed it. -/
def designP1 : RealSection := ⟨.finite (1/2), .finite (1/2), .finite 0, .finite (-1/2), .finite 0⟩

theorem test_witness_HostQuantisesOrAbandons :
    hostBuildFrame .reference 2 [designP1] = some (0x01010002 :: sectionP1) ∧
    HostReal.finite 128 ∈ [(⟨.finite 128, .nan, .finite 0, .finite 0, .finite 0⟩ : RealSection)].flatMap
      RealSection.coefficients ∧ qOverflows .reference (.finite 128) = true ∧
    1 ≤ [designP1].length ∧ [designP1].length ≤ Config.reference.NS_MAX ∧ 2 ≤ 127 ∧ 127 ≤ K_MAX .reference ∧
    ∀ r ∈ [designP1].flatMap RealSection.coefficients, qOverflows .reference r = false ∧ r ≠ .nan := by decide +kernel
theorem test_witness_WriteChangesOneWord : 63 < p1.DLY.length ∧ 62 ≠ 63 := by decide
theorem test_witness_ExactStageRealisesItsTransferFunction :
    TraceIsExact .reference sos1 0x00C00000 0xFF800000 0x00200000
      (sosLaneTrace .reference sos1 0x00C00000 0xFF800000 0x00200000) :=
  ⟨by decide +kernel, by decide +kernel, by decide +kernel, by decide +kernel, by decide +kernel, by decide +kernel,
    by decide +kernel, by decide +kernel, by decide +kernel⟩
theorem test_witness_StageStepWritesOnlyItsRegisters :
    4 * 15 + 3 < p1.DLY.length ∧ 59 < 4 * 15 ∧ 4 * 0 + 4 ≤ 4 := by decide
theorem test_witness_StageCornerCases : IsWord .reference 0x80000000 ∧ IsWord small 0xFFFF8000 := by decide
/-- Four sections and factor 4, the source's scenario 6 (R160). -/
def scenario6 : State := cascade .reference 4 4 0x04000000 [] [] 0

theorem test_witness_OperationCounts :
    Inv scenario6 ∧ (scenario6.LIFE = .CREATED ∨ scenario6.LIFE = .EXECUTING) ∧ scenario6.NS = 4 ∧ scenario6.K = 4 ∧
    Inv p2 ∧ (p2.LIFE = .CREATED ∨ p2.LIFE = .EXECUTING) :=
  ⟨inv_of _ (by decide +kernel) (by decide +kernel) (by decide +kernel), by decide, by decide, by decide, inv_p2, by decide⟩
theorem test_witness_BuildReportsTheFirstFailingCheck :
    (List.replicate 85 (0 : Word)).length = 5 * (17#8).toNat ∧ (1#16).toNat < 2 ∧ 2 ≤ (2#16).toNat ∧
    ([] : List Word).length = 5 * (0#8).toNat ∧ (0#8).toNat = 0 ∧ 1 ≤ (1#8).toNat ∧
    K_MAX .reference < (128#16).toNat ∧ (127#16).toNat ≤ K_MAX .reference ∧
    Config.reference.NS_MAX < (17#8).toNat ∧ (16#8).toNat ≤ Config.reference.NS_MAX ∧
    (p1.LIFE = .CREATED ∨ p1.LIFE = .EXECUTING) := by decide +kernel
theorem test_witness_BuildCreatesTheCascade :
    Inv destroyed ∧ (List.replicate 80 (0 : Word)).length = 5 * (16#8).toNat ∧ 2 ≤ (127#16).toNat ∧
    (127#16).toNat ≤ K_MAX destroyed.cfg ∧ 1 ≤ (16#8).toNat ∧ (16#8).toNat ≤ destroyed.cfg.NS_MAX ∧
    (destroyed.LIFE = .NONE ∨ destroyed.LIFE = .DESTROYED) ∧ Inv State.reset ∧
    (State.reset.LIFE = .NONE ∨ State.reset.LIFE = .DESTROYED) :=
  ⟨inv_destroyed, by decide +kernel, by decide, by decide +kernel, by decide, by decide, by decide, inv_reset _, by decide⟩
theorem test_witness_HostBootIsAccepted : hostBuildFrame .reference 2 [designP1] = some (0x01010002 :: sectionP1) := by
  decide +kernel
theorem test_witness_ExecRunsKPassesAndScalesThem :
    Inv p2 ∧ (p2.LIFE = .CREATED ∨ p2.LIFE = .EXECUTING) := ⟨inv_p2, by decide⟩
theorem test_witness_ExecUsageErrors :
    (State.reset.LIFE = .NONE ∨ State.reset.LIFE = .DESTROYED) ∧
    (({ p1 with NS := 0 } : State).LIFE = .CREATED ∨ ({ p1 with NS := 0 } : State).LIFE = .EXECUTING) ∧
    ({ p1 with NS := 0 } : State).NS = 0 := by decide
theorem test_witness_ExecFrame : Inv p1 ∧ exec (.exec 1 2) p1 = .next (after (exec (.exec 1 2) p1)) ∧ 4 * p1.NS.toNat ≤ 4 :=
  ⟨inv_p1, next_after (by decide +kernel), by decide⟩
theorem test_witness_OutputWordsInProductionOrder : 1 < [(⟨1, 2⟩ : Cplx), ⟨3, 4⟩].length := by decide
theorem test_witness_EveryExecEmitsKSamples :
    Inv p1 ∧ p1.LIFE.live = true ∧ p1.rst = false ∧ exec (.exec 1 2) p1 = .next (after (exec (.exec 1 2) p1)) ∧
    Inv State.reset ∧ State.reset.LIFE.live = false ∧
    exec (.exec 1 2) State.reset = .next (after (exec (.exec 1 2) State.reset)) ∧
    ({ p1 with cmd := execFrames [(1, 2), (3, 4)] ++ [0x03000000] } : State).cmd =
      execFrames [(1, 2), (3, 4)] ++ [0x03000000] :=
  ⟨inv_p1, by decide, by decide, next_after (by decide +kernel), inv_reset _, by decide, next_after (by decide +kernel),
    rfl⟩
theorem test_witness_ExecsRunOverTheZeroStuffedSequence :
    Inv { p2 with cmd := execFrames [(1, 2), (3, 4)] ++ [0x03000000] } ∧ p2.LIFE.live = true ∧ p2.rst = false :=
  ⟨inv_p2.withCmd _, by decide, by decide⟩
theorem test_witness_ZeroInputAfterResetGivesZeroOutput :
    Inv { p1 with cmd := encode .reset ++ (execFrames (List.replicate 3 (0, 0)) ++ []) } ∧ p1.LIFE.live = true ∧
    p1.rst = false ∧
    Inv { destroyed with cmd := encode (.build 1 2 sectionP1) ++ (execFrames (List.replicate 3 (0, 0)) ++ []) } ∧
    destroyed.LIFE.live = false ∧ destroyed.rst = false ∧ sectionP1.length = 5 * (1#8).toNat ∧ 2 ≤ (2#16).toNat ∧
    (2#16).toNat ≤ K_MAX destroyed.cfg ∧ 1 ≤ (1#8).toNat ∧ (1#8).toNat ≤ destroyed.cfg.NS_MAX :=
  ⟨inv_p1.withCmd _, by decide, by decide, inv_destroyed.withCmd _, by decide, by decide, by decide, by decide,
    by decide +kernel, by decide, by decide⟩

/-- Program P1 after line 2, with other words in the `im` lane of its delay registers and in an unused word. -/
def p1Other : State := cascade .reference 1 2 0x02000000 sectionP1 [0x00800000, 7, 0x01000000, 8] 0

theorem test_witness_LanesAreIndependent :
    Inv p1Other ∧ p1Other.LIFE.live = true ∧ p1.cfg = p1Other.cfg ∧ p1.NS = p1Other.NS ∧ p1.K = p1Other.K ∧
    p1.G = p1Other.G ∧ p1.COEF = p1Other.COEF ∧ p1.DLY ≠ p1Other.DLY ∧ SameLane 0 1 p1.DLY p1Other.DLY ∧
    exec (.exec 1 2) p1 = .next (after (exec (.exec 1 2) p1)) ∧
    exec (.exec 1 9) p1Other = .next (after (exec (.exec 1 9) p1Other)) :=
  ⟨inv_of _ (by decide +kernel) (by decide +kernel) (by decide +kernel), by decide, rfl, rfl, rfl, rfl, rfl,
    by decide +kernel, by unfold SameLane; decide +kernel, next_after (by decide +kernel), next_after (by decide +kernel)⟩
theorem test_witness_SequencerComputesTheExec : 1 ≤ p2.NS.toNat := by decide
theorem test_witness_ResetZeroesTheDelays :
    Inv p2 ∧ (p2.LIFE = .CREATED ∨ p2.LIFE = .EXECUTING) ∧ 1 < p2.NS.toNat ∧ 4 * p2.NS.toNat ≤ 8 :=
  ⟨inv_p2, by decide, by decide, by decide⟩
theorem test_witness_DestroyReleasesTheCascade : p1.LIFE = .CREATED ∨ p1.LIFE = .EXECUTING := by decide
theorem test_witness_ResetAndDestroyNeedALiveCascade :
    (State.reset.LIFE = .NONE ∨ State.reset.LIFE = .DESTROYED) ∧
    (destroyed.LIFE = .NONE ∨ destroyed.LIFE = .DESTROYED) := by decide
theorem test_witness_LifecycleTable :
    Inv p1 ∧ Inv State.reset ∧ Inv destroyed ∧ sectionP1.length = 5 * (1#8).toNat ∧ 2 ≤ (2#16).toNat ∧
    (2#16).toNat ≤ K_MAX p1.cfg ∧ 1 ≤ (1#8).toNat ∧ (1#8).toNat ≤ p1.cfg.NS_MAX :=
  ⟨inv_p1, inv_reset _, inv_destroyed, by decide, by decide, by decide +kernel, by decide, by decide⟩
theorem test_witness_ErroredCommandsChangeNothing :
    exec (.build 1 1 sectionP1) p1 = .next (after (exec (.build 1 1 sectionP1) p1)) ∧
    exec (.exec 1 2) p1 = .next (after (exec (.exec 1 2) p1)) :=
  ⟨next_after (by decide +kernel), next_after (by decide +kernel)⟩
theorem test_witness_StatusCodesPerCommand : exec .reset destroyed = .next (after (exec .reset destroyed)) :=
  next_after (by decide +kernel)
theorem test_witness_OneResponsePerHeader :
    Inv { p1 with cmd := [0x02000000, 1, 2] } ∧ p1.rst = false ∧ p1.stalled = false ∧ decode [0x02000000, 1, 2] ≠ .incomplete ∧
    step { p1 with cmd := [0x02000000, 1, 2] } = .next (after (step { p1 with cmd := [0x02000000, 1, 2] })) :=
  ⟨inv_p1.withCmd _, by decide, by decide, by decide, next_after (by decide +kernel)⟩
theorem test_witness_StepKeepsTheInvariant :
    Inv { p2 with cmd := [0x03000000] } ∧
    step { p2 with cmd := [0x03000000] } = .next (after (step { p2 with cmd := [0x03000000] })) :=
  ⟨inv_p2.withCmd _, next_after (by decide +kernel)⟩
theorem test_witness_ReachableStatesMeetTheInvariant :
    Reachable (portEdge ⟨false, true, 0x01010002, true⟩ true (State.resetOf small)) := .edge _ _ (.start _)
theorem test_witness_StepNeverStops : Inv { p1 with cmd := [0x02000000, 1, 2] } := inv_p1.withCmd _

/-- Program P1 after line 2 with an EXEC in the stream; the unused words hold `pad`. -/
def p1Exec (pad : Word) : State :=
  { cascade .reference 1 2 0x02000000 sectionP1 [0x00800000, 0xFFE00000, 0x01000000, 0xFFC00000] pad with
    cmd := [0x02000000, 1, 2] }

theorem test_witness_UnspecifiedStorageNeverLeaks :
    Inv (p1Exec 0) ∧ Inv (p1Exec 5) ∧ SameUsed (p1Exec 0) (p1Exec 5) ∧ (p1Exec 0).COEF ≠ (p1Exec 5).COEF ∧
    step (p1Exec 0) = .next (after (step (p1Exec 0))) :=
  ⟨inv_of _ (by decide +kernel) (by decide +kernel) (by decide +kernel),
    inv_of _ (by decide +kernel) (by decide +kernel) (by decide +kernel),
    ⟨rfl, rfl, rfl, rfl, rfl, fun _ => rfl, fun _ => rfl, fun _ => rfl, fun _ => by decide +kernel,
      fun _ => by decide +kernel⟩,
    by decide +kernel, next_after (by decide +kernel)⟩
theorem test_witness_LiveCascadeIsImmutable :
    step (p1Exec 0) = .next (after (step (p1Exec 0))) ∧ (p1Exec 0).LIFE.live = true ∧
    (after (step (p1Exec 0))).LIFE.live = true :=
  ⟨next_after (by decide +kernel), by decide, by decide +kernel⟩
theorem test_witness_LifeChangesOnlyByItsCommands :
    let s : State := { State.reset with cmd := 0x01010002 :: sectionP1 }
    step s = .next (after (step s)) ∧ (after (step s)).LIFE ≠ s.LIFE :=
  ⟨next_after (by decide +kernel), by decide +kernel⟩
theorem test_witness_HardwareResetDropsEverything :
    ({ p1Exec 0 with rst := true } : State).rst = true ∧ (⟨true, false, 0, false⟩ : PortIn).rst = true ∧
    (⟨false, false, 0, false⟩ : PortIn).rst = false := by decide
theorem test_witness_HandshakeMovesOneWordInOrder :
    let i : PortIn := ⟨false, true, 0x04000000, true⟩
    let s : State := { p1 with rsp := [0x01000000] }
    i.rst = false ∧ i.cmdValid = true ∧ (portOut i true s).cmdReady = true ∧ (portOut i false s).cmdReady = false ∧
    i.rspReady = true ∧ (portOut i true s).rspData = some 0x01000000 ∧ (portOut i true p1).rspValid = false ∧
    decode (waiting 0).cmd ≠ .incomplete ∧ (waiting 0).cfg.cmdBuf ≤ (waiting 0).cmd.length := by
  decide +kernel

/-- A host that always offers and never accepts. -/
def deaf (n : Nat) : Event := if n % 2 = 0 then .engine else .edge true false true

theorem test_witness_EngineHoldsUntilTheResponseIsAccepted :
    let l : Link := ⟨waiting 5, [0x04000000], []⟩
    l.block.rst = false ∧ l.block.stalled = true ∧ ∀ n offer ready, deaf n ≠ .edge offer true ready :=
  ⟨by decide, by decide, fun n offer ready => by unfold deaf; split <;> simp⟩

/-- A host that offers and accepts at every other event; the implementation never chooses to be ready. -/
def alternating (n : Nat) : Event := if n % 2 = 0 then .engine else .edge true true false

theorem test_witness_FairHandshakesAnswerEveryFrame :
    Inv (⟨waiting 5, [0x02000000, 1, 2, 0x02000000], []⟩ : Link).block ∧ (waiting 5).rst = false ∧ Fair alternating :=
  ⟨inv_smallP1.congr rfl rfl rfl rfl rfl rfl rfl, by decide,
    ⟨fun n => ⟨2 * n, by omega, by simp [alternating]⟩,
      fun n => ⟨2 * n + 1, by omega, true, false, by simp [alternating]⟩,
      fun n => ⟨2 * n + 1, by omega, true, false, by simp [alternating]⟩⟩⟩
theorem test_witness_ListingLinesAreFrames :
    let g : BracketGroup := ⟨.real (1/2), .raw 0x00800000, .real 0, .real (-1/2), .raw 0⟩
    assembleLine .reference (.exec (.real 1) (.raw 0xFFC00000)) = some [0x02000000, 0x01000000, 0xFFC00000] ∧
    assembleLine .reference (.build 2 none [g]) = some (0x01010002 :: sectionP1) ∧
    assembleLine .reference (.build 65535 (some 255) [g]) = some (0x01FFFFFF :: sectionP1) ∧
    assembleLine .reference (.build 2 (some 0) [g]) = some (0x01000002 :: sectionP1) ∧
    assembleLine .reference (.build 65536 none [g]) = none := by decide +kernel

end Sys2Proof.Machine.Tests
end

