-- ==== Sys2Proof/Proofs/Lifecycle.lean ====
section
/-!
PROOFS. Proofs/Lifecycle.lean: what a command does to `LIFE` (R13, R114), and that no step changes `LIFE` otherwise.
-/

namespace Sys2Proof.Machine

/-- A command keeps `LIFE`, or it is the one command that may enter the new position, from where it may (R13). -/
theorem exec_LIFE_cases {i : Instr} {s t : State} (h : exec i s = .next t) :
    t.LIFE = s.LIFE ∨
    (t.LIFE = .CREATED ∧ opOf i = .BUILD ∧ s.LIFE.live = false) ∨
    (t.LIFE = .EXECUTING ∧ (opOf i = .EXEC ∨ opOf i = .RESET) ∧ s.LIFE.live = true) ∨
    (t.LIFE = .DESTROYED ∧ opOf i = .DESTROY ∧ s.LIFE.live = true) := by
  cases i with
  | build ns k p =>
    obtain ⟨-, ⟨e, -, rfl⟩ | ⟨hc, rfl⟩⟩ := execBuild_cases h
    · exact .inl rfl
    · obtain ⟨-, -, -, -, hdead⟩ := (buildCheck_none_iff _ _ _ _).1 hc
      exact .inr (.inl ⟨rfl, rfl, hdead⟩)
  | exec re im =>
    obtain ⟨e, -, rfl⟩ | ⟨hl, -, -, rfl⟩ := execExec_cases h
    · exact .inl rfl
    · exact .inr (.inr (.inl ⟨rfl, .inl rfl, hl⟩))
  | reset =>
    obtain ⟨-, rfl⟩ | ⟨hl, -, rfl⟩ := execReset_cases h
    · exact .inl rfl
    · exact .inr (.inr (.inl ⟨rfl, .inr rfl, hl⟩))
  | destroy =>
    obtain ⟨-, rfl⟩ | ⟨hl, rfl⟩ := execDestroy_cases h
    · exact .inl rfl
    · exact .inr (.inr (.inr ⟨rfl, rfl, hl⟩))

/-- Settles O54: a step that changes `LIFE` is a hardware reset or runs a command, since a stall, an illegal header
and a wait keep `LIFE`; and a live cascade that comes to be `EXECUTING` without having been so was `CREATED`. -/
theorem lifeChangesOnlyByItsCommands : Obligations.LifeChangesOnlyByItsCommands := by
  intro s t h hne
  obtain ⟨hr, rfl⟩ | ⟨-, -, rfl⟩ | ⟨hr, -, i, rest, hd, -, he⟩ | ⟨-, -, w, rest, -, rfl⟩ | ⟨-, -, -, rfl⟩ :=
    step_cases h
  case inl => exact .inl ⟨rfl, hr⟩
  case inr.inr.inl =>
    refine .inr ⟨hr, i, rest, hd, ?_⟩
    obtain hkeep | hbuild | ⟨ht, hop, hl⟩ | hdestroy := exec_LIFE_cases he
    · exact absurd hkeep hne
    · exact .inl hbuild
    · have hcreated : s.LIFE = .CREATED :=
        ((live_iff _).1 hl).resolve_right fun hs => hne (ht.trans hs.symm)
      exact .inr (.inl ⟨ht, hop, hcreated⟩)
    · exact .inr (.inr hdestroy)
  all_goals exact absurd rfl hne

end Sys2Proof.Machine
end

