-- ==== Sys2Proof/Proofs/Invariant.lean ====
section
/-!
PROOFS. Proofs/Invariant.lean: the invariant of R22 at reset, across commands, steps and clock edges, and what a live
cascade keeps (R12, R28).
-/

namespace Sys2Proof.Machine

/-- Settles O48: the zero word is a word of every configuration, and after reset nothing is live. -/
theorem resetStateMeetsTheInvariant : Obligations.ResetStateMeetsTheInvariant := by
  have hreset : ∀ c : Config, Inv (State.resetOf c) := fun c =>
    ⟨wf_replicate_zero c _ (isWord_zero c), wf_replicate_zero c _ (isWord_zero c), isWord_zero c, nofun⟩
  exact ⟨hreset _, hreset⟩

/-! ### The operations that write the state -/

theorem Inv.respond {s : State} (h : Inv s) (op : BitVec 8) (st : Status) (payload : List Word) :
    Inv (respond op st payload s) :=
  h.congr rfl rfl rfl rfl rfl rfl rfl

/-- A command that only writes `LIFE` of a live cascade and its delay memory keeps the invariant (R107, R108). -/
theorem Inv.withDelays {s : State} (h : Inv s) (hl : s.LIFE.live = true) (life : Life) {dly : Memory}
    (hd : Memory.wf s.cfg (4 * s.cfg.NS_MAX) dly) : Inv { s with DLY := dly, LIFE := life } := by
  obtain ⟨hpos, hfit, hmin, hmax, hgain⟩ := h.live hl
  exact ⟨h.coef, hd, h.gainWord, fun _ => ⟨hpos, hfit, hmin, hmax, hgain⟩⟩

/-- Unspecified storage holds words, and the invariant asks no more of a cascade that is not live (R9, R22). -/
theorem inv_releaseStorage (s : State) {life : Life} (hl : life.live = false) :
    Inv { releaseStorage s with LIFE := life } :=
  ⟨wf_unspecifiedMemory _ _ _ (isWord_container _), wf_unspecifiedMemory _ _ _ (isWord_container _),
    isWord_container _ _, fun h => absurd (hl.symm.trans h) Bool.false_ne_true⟩

theorem inv_hardwareReset (s : State) : Inv (hardwareReset s) :=
  (inv_releaseStorage s (life := .NONE) rfl).congr rfl rfl rfl rfl rfl rfl rfl

theorem isWord_coefficientOperands (c : Config) (payload : List Word) :
    ∀ w ∈ coefficientOperands c payload, IsWord c w := by
  intro w hw
  obtain ⟨v, -, rfl⟩ := List.mem_map.1 hw
  exact isWord_container c v

/-- A BUILD whose checks pass establishes R22 (b), with the gain word in range by R2's bound on `K` (R106). -/
theorem inv_buildState {s : State} (h : Inv s) {ns : BitVec 8} {k : BitVec 16} (payload : List Word)
    (hc : buildCheck s.cfg ns k s.LIFE = none) : Inv (buildState ns k payload s) := by
  obtain ⟨hmin, hmax, hpos, hfit, -⟩ := (buildCheck_none_iff _ _ _ _).1 hc
  exact ⟨wf_memWriteBlock _ h.coef _ (isWord_coefficientOperands _ _), wf_clearDelays h.dly (isWord_zero _) _,
    isWord_qFromInt (Int.natCast_nonneg _) (gain_fits hmax), fun _ => ⟨hpos, hfit, hmin, hmax, rfl⟩⟩

/-! ### Commands, steps and edges -/

theorem inv_exec {i : Instr} {s t : State} (h : Inv s) (he : exec i s = .next t) : Inv t := by
  cases i with
  | build ns k p =>
    obtain ⟨-, ⟨e, -, rfl⟩ | ⟨hc, rfl⟩⟩ := execBuild_cases he
    · exact h.respond _ _ _
    · exact (inv_buildState h p hc).respond _ _ _
  | exec re im =>
    obtain ⟨e, -, rfl⟩ | ⟨hl, -, -, rfl⟩ := execExec_cases he
    · exact h.respond _ _ _
    · exact (h.withDelays hl _ (wf_runPasses _ _ _ h.dly)).respond _ _ _
  | reset =>
    obtain ⟨-, rfl⟩ | ⟨hl, -, rfl⟩ := execReset_cases he
    · exact h.respond _ _ _
    · exact (h.withDelays hl _ (wf_clearDelays h.dly (isWord_zero _) _)).respond _ _ _
  | destroy =>
    obtain ⟨-, rfl⟩ | ⟨-, rfl⟩ := execDestroy_cases he
    · exact h.respond _ _ _
    · exact (inv_releaseStorage s rfl).respond _ _ _

/-- Settles O49: a hardware reset establishes the invariant, a command keeps it, and an illegal header, a stall and a
wait touch nothing it speaks of. -/
theorem stepKeepsTheInvariant : Obligations.StepKeepsTheInvariant := by
  intro s t h hstep
  obtain ⟨-, rfl⟩ | ⟨-, -, rfl⟩ | ⟨-, -, i, rest, -, -, he⟩ | ⟨-, -, w, rest, -, rfl⟩ | ⟨-, -, -, rfl⟩ :=
    step_cases hstep
  · exact inv_hardwareReset s
  · exact h
  · exact inv_exec (h.withCmd rest) he
  · exact (h.withCmd rest).respond _ _ _
  · exact h

theorem inv_portEdge {s : State} (h : Inv s) (i : PortIn) (ready : Bool) : Inv (portEdge i ready s) := by
  unfold portEdge
  split
  · exact (inv_hardwareReset s).congr rfl rfl rfl rfl rfl rfl rfl
  · exact h.congr rfl rfl rfl rfl rfl rfl rfl

/-- Settles O50, by induction on the way the state was reached. -/
theorem reachableStatesMeetTheInvariant : Obligations.ReachableStatesMeetTheInvariant := by
  intro s hs
  induction hs with
  | start c => exact resetStateMeetsTheInvariant.2 c
  | engine _ hstep ih => exact stepKeepsTheInvariant _ _ ih hstep
  | edge i ready _ ih => exact inv_portEdge ih i ready

/-! ### What a live cascade keeps -/

/-- `NS`, `K`, `G` and `COEF` are those of the earlier state (R12). -/
abbrev SameCascade (s t : State) : Prop := t.NS = s.NS ∧ t.K = s.K ∧ t.G = s.G ∧ t.COEF = s.COEF

/-- Only BUILD and DESTROY write the cascade: one is refused while it is live, the other ends it (R12, R114). -/
theorem exec_sameCascade {i : Instr} {s t : State} (he : exec i s = .next t) (hs : s.LIFE.live = true)
    (ht : t.LIFE.live = true) : SameCascade s t := by
  cases i with
  | build ns k p =>
    obtain ⟨-, ⟨e, -, rfl⟩ | ⟨hc, rfl⟩⟩ := execBuild_cases he
    · exact ⟨rfl, rfl, rfl, rfl⟩
    · obtain ⟨-, -, -, -, hdead⟩ := (buildCheck_none_iff _ _ _ _).1 hc
      exact absurd (hdead.symm.trans hs) Bool.false_ne_true
  | exec re im => obtain ⟨e, -, rfl⟩ | ⟨-, -, -, rfl⟩ := execExec_cases he <;> exact ⟨rfl, rfl, rfl, rfl⟩
  | reset => obtain ⟨-, rfl⟩ | ⟨-, -, rfl⟩ := execReset_cases he <;> exact ⟨rfl, rfl, rfl, rfl⟩
  | destroy =>
    obtain ⟨-, rfl⟩ | ⟨-, rfl⟩ := execDestroy_cases he
    · exact ⟨rfl, rfl, rfl, rfl⟩
    · exact absurd ht Bool.false_ne_true

/-- Settles O53: no operation writes the parameters; a hardware reset ends the cascade, and a command that leaves it
live leaves it the same. -/
theorem liveCascadeIsImmutable : Obligations.LiveCascadeIsImmutable := by
  intro s t hstep
  obtain ⟨-, rfl⟩ | ⟨-, -, rfl⟩ | ⟨-, -, i, rest, -, -, he⟩ | ⟨-, -, w, rest, -, rfl⟩ | ⟨-, -, -, rfl⟩ :=
    step_cases hstep
  case inl => exact ⟨rfl, fun _ ht => absurd ht Bool.false_ne_true⟩
  case inr.inr.inl =>
    obtain ⟨-, -, -, hcfg⟩ := exec_keeps_streams he
    exact ⟨hcfg, exec_sameCascade (s := { s with cmd := rest }) he⟩
  all_goals exact ⟨rfl, fun _ _ => ⟨rfl, rfl, rfl, rfl⟩⟩

end Sys2Proof.Machine
end

