-- ==== Sys2Proof/Proofs/CommandEffects.lean ====
section
/-!
PROOFS. Proofs/CommandEffects.lean: what a successful BUILD, RESET and DESTROY leave, and the frame of EXEC
(R11, R21, R25 to R27, R101).
-/

namespace Sys2Proof.Machine

/-! ### Under the invariant every address in use lies inside its space (R22, R40) -/

theorem Inv.length_COEF {s : State} (h : Inv s) : s.COEF.length = 5 * s.cfg.NS_MAX := h.coef.1
theorem Inv.length_DLY {s : State} (h : Inv s) : s.DLY.length = 4 * s.cfg.NS_MAX := h.dly.1

theorem Inv.dly_fits {s : State} (h : Inv s) (hl : s.LIFE.live = true) : 4 * s.NS.toNat ≤ s.DLY.length := by
  have hfit := (h.live hl).sections_fit
  rw [h.length_DLY]; omega

/-- EXEC on a live cascade completes (R107). -/
theorem execExec_of_inv {s : State} (h : Inv s) (hl : s.LIFE.live = true) (re im : Word) :
    execExec re im s = .next (execOk (sampleOperand s.cfg re im) s) :=
  execExec_live re im hl (Nat.one_le_iff_ne_zero.1 (h.live hl).sections_pos) (h.live hl).sections_fit

/-- RESET on a live cascade completes (R108). -/
theorem execReset_of_inv {s : State} (h : Inv s) (hl : s.LIFE.live = true) : execReset s = .next (resetOk s) :=
  execReset_live hl (h.live hl).sections_fit

/-! ### The words BUILD and RESET leave -/

theorem cplxRead_clearDelays {dly : Memory} {ns : Nat} (h : 4 * ns ≤ dly.length) {n : Nat} (hn : n < ns) :
    cplxRead (clearDelays dly ns) (w1Addr n) = czero ∧ cplxRead (clearDelays dly ns) (w2Addr n) = czero := by
  have hzero : ∀ a < 4 * ns, memRead (clearDelays dly ns) a = 0#32 := fun a ha => by
    rw [memRead_clearDelays h, if_pos ha]
  simp only [cplxRead, w1Addr, w2Addr]
  rw [hzero _ (by omega), hzero _ (by omega), hzero _ (by omega), hzero _ (by omega)]
  exact ⟨rfl, rfl⟩

theorem memRead_clearDelays_unused {dly : Memory} {ns : Nat} (h : 4 * ns ≤ dly.length) {a : Nat} (ha : 4 * ns ≤ a) :
    memRead (clearDelays dly ns) a = memRead dly a := by
  rw [memRead_clearDelays h, if_neg (by omega)]

@[simp] theorem length_coefficientOperands (c : Config) (payload : List Word) :
    (coefficientOperands c payload).length = payload.length := by simp [coefficientOperands]

theorem memRead_coefficientOperands (c : Config) {payload : List Word} {a : Nat} (ha : a < payload.length) :
    memRead (coefficientOperands c payload) a = container c (payload.getD a 0) := by
  simp [memRead, coefficientOperands, ha]

/-- The coefficient memory after a BUILD: the payload's words, then the words it does not reach (R31, R106). -/
theorem memRead_buildState_COEF {s : State} {payload : List Word} (h : payload.length ≤ s.COEF.length) (ns : BitVec 8)
    (k : BitVec 16) (a : Nat) :
    memRead (buildState ns k payload s).COEF a =
      if a < payload.length then container s.cfg (payload.getD a 0) else memRead s.COEF a := by
  rw [buildState_COEF, memRead_memWriteBlock _ (by simpa using h)]
  by_cases ha : a < payload.length
  · rw [if_pos (by simpa using ha), if_pos ha, ← memRead_coefficientOperands _ ha]; rfl
  · rw [if_neg (by simpa using ha), if_neg ha]

/-! ### The obligations -/

/-- Settles O29: the payload and the delay registers in use lie inside their spaces, and R2's bound on `K` keeps the
gain word in range. -/
theorem buildCreatesTheCascade : Obligations.BuildCreatesTheCascade := by
  intro s ns k payload hi hp hmin hmax hpos hfit hlife
  have hc : buildCheck s.cfg ns k s.LIFE = none :=
    (buildCheck_none_iff _ _ _ _).2 ⟨hmin, hmax, hpos, hfit, (not_live_iff _).2 hlife⟩
  have hcoef : payload.length ≤ s.COEF.length := by rw [hi.length_COEF]; omega
  have hdly : 4 * ns.toNat ≤ s.DLY.length := by rw [hi.length_DLY]; omega
  have hnext : exec (.build ns k payload) s = .next (respond Op.BUILD.code .OK [] (buildState ns k payload s)) :=
    (execBuild_eq hp s).trans (by rw [hc])
  refine ⟨_, hnext, rfl, rfl, rfl, val_qFromInt (Int.natCast_nonneg _) (gain_fits hmax),
    (inv_buildState hi payload hc).gainWord, fun n hn j hj => ?_, fun n hn => cplxRead_clearDelays hdly hn,
    fun a ha => ?_, fun a ha => memRead_clearDelays_unused hdly ha, rfl, rfl, rfl, rfl, rfl⟩
  · rw [respond_COEF, memRead_buildState_COEF hcoef, if_pos (by omega)]
  · rw [respond_COEF, memRead_buildState_COEF hcoef, if_neg (by omega)]

/-- Settles O33: the passes leave the delay words of sections not in use; an errored EXEC leaves them all. -/
theorem execFrame : Obligations.ExecFrame := by
  intro s t re im hi he
  obtain ⟨e, -, rfl⟩ | ⟨hl, -, -, rfl⟩ := execExec_cases he
  · exact ⟨rfl, rfl, rfl, rfl, rfl, rfl, rfl, rfl, List.prefix_append _ _, rfl, fun _ _ => rfl⟩
  · exact ⟨rfl, rfl, rfl, rfl, rfl, rfl, rfl, rfl, List.prefix_append _ _, runPasses_dly_length _ _ _ _ _,
      fun a ha => memRead_runPasses_unused _ _ _ (hi.dly_fits hl) ha⟩

/-- Settles O40: the delay memory is the one whose words in use are cleared. -/
theorem resetZeroesTheDelays : Obligations.ResetZeroesTheDelays := by
  intro s hi hlife
  have hl : s.LIFE.live = true := (live_iff _).2 hlife
  have hfits := hi.dly_fits hl
  exact ⟨clearDelays s.DLY s.NS.toNat, execReset_of_inv hi hl, length_clearDelays _ _,
    fun n hn => cplxRead_clearDelays hfits hn, fun a ha => memRead_clearDelays_unused hfits ha⟩

/-- Settles O41: of the released storage the invariant says that it holds words. -/
theorem destroyReleasesTheCascade : Obligations.DestroyReleasesTheCascade := by
  intro s hlife
  obtain ⟨hcoef, hdly, hgain, -⟩ := inv_releaseStorage s (life := .DESTROYED) rfl
  exact ⟨_, execDestroy_live ((live_iff _).2 hlife), rfl, rfl, rfl, rfl, rfl, rfl, hcoef, hdly, hgain⟩

end Sys2Proof.Machine
end

