-- ==== Sys2Proof/Proofs/Sequencer.lean ====
section
/-!
PROOFS. Proofs/Sequencer.lean: the stage-by-stage walk of an EXEC against the atomic EXEC (R19, R115, R122).
-/

namespace Sys2Proof.Machine

theorem seqRun_add (c : Config) (coef : Memory) (ns m n : Nat) (q : Seq) :
    seqRun c coef ns (m + n) q = seqRun c coef ns n (seqRun c coef ns m q) := by
  induction m generalizing q with
  | zero => simp [seqRun]
  | succ m ih => rw [Nat.succ_add, seqRun, ih, seqRun]

theorem seqRun_succ (c : Config) (coef : Memory) (ns n : Nat) (q : Seq) :
    seqRun c coef ns (n + 1) q = seqStep c coef ns (seqRun c coef ns n q) := seqRun_add c coef ns n 1 q

/-- Inside a pass: after `i` stage steps from stage 0 the link and the delay memory are those of the cascade's first
`i` sections (R111, R122). -/
theorem seqRun_inside_pass (c : Config) (coef : Memory) {ns : Nat} {q : Seq} (hq : q.s = 0) {i : Nat} (hi : i < ns) :
    seqRun c coef ns i q =
      { q with
        s := i
        V := (cascadePass c coef q.V q.DLY i).1
        DLY := (cascadePass c coef q.V q.DLY i).2 } := by
  induction i with
  | zero => simp [seqRun, cascadePass, ← hq]
  | succ i ih => rw [seqRun_succ, ih (by omega), seqStep, seqAdvance, if_pos hi]; rfl

/-- A whole pass keeps its raw output and latches the next pass's virtual sample (R107, R112). -/
theorem seqRun_whole_pass (c : Config) (coef : Memory) {ns : Nat} (hns : 1 ≤ ns) {q : Seq} (hq : q.s = 0) :
    seqRun c coef ns ns q =
      { q with
        p := q.p + 1
        V := passInput q.X (q.p + 1)
        DLY := (cascadePass c coef q.V q.DLY ns).2
        RAW := q.RAW ++ [(cascadePass c coef q.V q.DLY ns).1] } := by
  obtain ⟨m, rfl⟩ : ∃ m, ns = m + 1 := ⟨ns - 1, by omega⟩
  rw [seqRun_succ, seqRun_inside_pass c coef hq (Nat.lt_succ_self m), seqStep, seqAdvance,
    if_neg (Nat.lt_irrefl _), ← hq]
  rfl

/-- The sequencer at the start of pass `k`, told by the passes of the atomic EXEC. -/
def seqAtPass (c : Config) (coef : Memory) (ns : Nat) (x : Cplx) (dly : Memory) (k : Nat) : Seq where
  p := k
  s := 0
  X := x
  V := passInput x k
  DLY := (runPasses c coef ns (virtualSamples x k) dly).2
  RAW := (runPasses c coef ns (virtualSamples x k) dly).1

theorem virtualSamples_succ (x : Cplx) (k : Nat) :
    virtualSamples x (k + 1) = virtualSamples x k ++ [passInput x k] := by
  cases k with
  | zero => rfl
  | succ k => simp [virtualSamples, passInput, List.replicate_succ']

/-- `k` whole passes of the walk are the first `k` passes of the EXEC (R107, R112). -/
theorem seqRun_passes (c : Config) (coef : Memory) {ns : Nat} (hns : 1 ≤ ns) (x : Cplx) (dly : Memory) (k : Nat) :
    seqRun c coef ns (k * ns) (seqStart x dly) = seqAtPass c coef ns x dly k := by
  induction k with
  | zero => simp [seqRun, seqStart, seqAtPass, virtualSamples, runPasses]
  | succ k ih =>
    rw [Nat.succ_mul, seqRun_add, ih, seqRun_whole_pass c coef hns rfl]
    simp [seqAtPass, virtualSamples_succ, runPasses_append, runPasses]

/-- After `n` stage steps the walk is in stage `n % ns` of pass `n / ns` (R19, R122). -/
theorem seqRun_position (c : Config) (coef : Memory) {ns : Nat} (hns : 1 ≤ ns) (x : Cplx) (dly : Memory) (n : Nat) :
    (seqRun c coef ns n (seqStart x dly)).p = n / ns ∧ (seqRun c coef ns n (seqStart x dly)).s = n % ns := by
  have hsplit : seqRun c coef ns n (seqStart x dly) =
      seqRun c coef ns (n % ns) (seqAtPass c coef ns x dly (n / ns)) := by
    rw [← seqRun_passes c coef hns, ← seqRun_add, Nat.div_add_mod']
  rw [hsplit, seqRun_inside_pass c coef rfl (Nat.mod_lt n hns)]
  exact ⟨rfl, rfl⟩

/-- Settles O39: the walk after `K` whole passes is at the start of pass `K`, whose raw outputs and delay words are
those of the EXEC's passes. -/
theorem sequencerComputesTheExec : Obligations.SequencerComputesTheExec := by
  intro s x hns
  refine ⟨seqRun_position s.cfg s.COEF hns x s.DLY, ?_⟩
  rw [seqRun_passes s.cfg s.COEF hns]
  exact ⟨rfl, rfl⟩

end Sys2Proof.Machine
end

