-- ==== Sys2Proof/Proofs/Lanes.lean ====
section
/-!
PROOFS. Proofs/Lanes.lean: one lane of an EXEC depends on that lane's words only (R91). The relation `SameLane` is
followed from the stage step through the pass and the passes to the response.
-/

namespace Sys2Proof.Machine

/-- The word of one lane: `re` for lane 0, `im` for lane 1 (R85). -/
def laneOf (lane : Nat) (z : Cplx) : Word := if lane = 0 then z.re else z.im

@[simp] theorem laneOf_zero (z : Cplx) : laneOf 0 z = z.re := rfl
@[simp] theorem laneOf_one (z : Cplx) : laneOf 1 z = z.im := rfl

theorem laneOf_cscale (c : Config) (g : Word) (lane : Nat) (z : Cplx) :
    laneOf lane (cscale c g z) = qmul c g (laneOf lane z) := by
  unfold laneOf cscale
  split_ifs <;> rfl

/-! ### The stage step in one lane -/

section Stage

variable (c : Config) (coef : Memory) (s : Nat) (v : Cplx) (dly : Memory)

/-- What a stage step computes in one lane, from that lane's words (R97, R98). -/
def stageLane (lane : Nat) : LaneResult :=
  sosLane c (coefsOf coef s) (memRead dly (w1Addr s + lane)) (memRead dly (w2Addr s + lane)) (laneOf lane v)

theorem laneOf_sosStep {lane : Nat} (hl : lane < 2) :
    laneOf lane (sosStep c coef s v dly).1 = (stageLane c coef s v dly lane).y := by
  interval_cases lane <;> rfl

variable {s dly} (h : 4 * s + 3 < dly.length)
include h

/-- A stage step writes the new `W1` of its own section. -/
theorem w1_sosStep {lane : Nat} (hl : lane < 2) :
    memRead (sosStep c coef s v dly).2 (w1Addr s + lane) = (stageLane c coef s v dly lane).w1 := by
  rw [memRead_sosStep c coef v h]
  interval_cases lane <;> simp [stageLane]

/-- The new `W2` of its own section is the old `W1` (R97). -/
theorem w2_sosStep {lane : Nat} (hl : lane < 2) :
    memRead (sosStep c coef s v dly).2 (w2Addr s + lane) = memRead dly (w1Addr s + lane) := by
  rw [memRead_sosStep c coef v h]
  simp only [w1Addr, w2Addr]
  interval_cases lane
  · simp
  · rw [if_neg (by omega), if_neg (by omega), if_neg (by omega), if_pos rfl]

/-- A stage step leaves the words of every other section as they were (R101). -/
theorem sosStep_other_section {n : Nat} (hn : n ≠ s) {lane : Nat} (hl : lane < 2) :
    memRead (sosStep c coef s v dly).2 (w1Addr n + lane) = memRead dly (w1Addr n + lane) ∧
    memRead (sosStep c coef s v dly).2 (w2Addr n + lane) = memRead dly (w2Addr n + lane) := by
  have hkeep : ∀ j < 4, memRead (sosStep c coef s v dly).2 (4 * n + j) = memRead dly (4 * n + j) := fun j hj => by
    rw [memRead_sosStep c coef v h, if_neg (by omega), if_neg (by omega), if_neg (by omega), if_neg (by omega)]
  exact ⟨hkeep lane (by omega), by rw [Nat.add_assoc, hkeep (2 + lane) (by omega)]⟩

end Stage

/-! ### Two cascades that agree in one lane -/

section Passes

variable {c : Config} {coef coef' : Memory} {ns lane : Nat} (hl : lane < 2)
  (hcoef : ∀ s < ns, coefsOf coef s = coefsOf coef' s)
include hl hcoef

theorem sameLane_sosStep {s : Nat} (hs : s < ns) {v v' : Cplx} (hv : laneOf lane v = laneOf lane v') {d e : Memory}
    (hd : 4 * ns ≤ d.length) (he : 4 * ns ≤ e.length) (h : SameLane lane ns d e) :
    laneOf lane (sosStep c coef s v d).1 = laneOf lane (sosStep c coef' s v' e).1 ∧
    SameLane lane ns (sosStep c coef s v d).2 (sosStep c coef' s v' e).2 := by
  have hstage : stageLane c coef s v d lane = stageLane c coef' s v' e lane := by
    simp only [stageLane, hcoef s hs, hv, (h s hs).1, (h s hs).2]
  refine ⟨by rw [laneOf_sosStep _ _ _ _ _ hl, laneOf_sosStep _ _ _ _ _ hl, hstage], fun n hn => ?_⟩
  by_cases hns : n = s
  · subst hns
    rw [w1_sosStep _ _ _ (by omega) hl, w1_sosStep _ _ _ (by omega) hl, w2_sosStep _ _ _ (by omega) hl,
      w2_sosStep _ _ _ (by omega) hl]
    exact ⟨congrArg LaneResult.w1 hstage, (h n hn).1⟩
  · obtain ⟨hd1, hd2⟩ := sosStep_other_section c coef v (dly := d) (by omega) hns hl
    obtain ⟨he1, he2⟩ := sosStep_other_section c coef' v' (dly := e) (by omega) hns hl
    rw [hd1, hd2, he1, he2]
    exact h n hn

theorem sameLane_cascadePass {v v' : Cplx} (hv : laneOf lane v = laneOf lane v') {d e : Memory}
    (hd : 4 * ns ≤ d.length) (he : 4 * ns ≤ e.length) (h : SameLane lane ns d e) {n : Nat} (hn : n ≤ ns) :
    laneOf lane (cascadePass c coef v d n).1 = laneOf lane (cascadePass c coef' v' e n).1 ∧
    SameLane lane ns (cascadePass c coef v d n).2 (cascadePass c coef' v' e n).2 := by
  induction n with
  | zero => exact ⟨hv, h⟩
  | succ n ih =>
    obtain ⟨hout, hdly⟩ := ih (by omega)
    exact sameLane_sosStep hl hcoef hn hout (by rwa [cascadePass_length]) (by rwa [cascadePass_length]) hdly

theorem sameLane_runPasses {vs vs' : List Cplx} (hvs : vs.map (laneOf lane) = vs'.map (laneOf lane)) {d e : Memory}
    (hd : 4 * ns ≤ d.length) (he : 4 * ns ≤ e.length) (h : SameLane lane ns d e) :
    (runPasses c coef ns vs d).1.map (laneOf lane) = (runPasses c coef' ns vs' e).1.map (laneOf lane) ∧
    SameLane lane ns (runPasses c coef ns vs d).2 (runPasses c coef' ns vs' e).2 := by
  induction vs generalizing vs' d e with
  | nil =>
    obtain rfl : vs' = [] := by simpa using hvs.symm
    exact ⟨rfl, h⟩
  | cons v vs ih =>
    obtain ⟨v', vs', rfl⟩ : ∃ v' ws, vs' = v' :: ws := List.exists_cons_of_ne_nil (by rintro rfl; simp at hvs)
    obtain ⟨hv, hrest⟩ := List.cons_eq_cons.1 hvs
    obtain ⟨hout, hdly⟩ := sameLane_cascadePass hl hcoef hv hd he h le_rfl
    obtain ⟨houts, hlast⟩ := ih hrest (by rwa [cascadePass_length]) (by rwa [cascadePass_length]) hdly
    exact ⟨List.cons_eq_cons.2 ⟨hout, houts⟩, hlast⟩

end Passes

/-! ### Two EXECs that agree in one lane -/

/-- What one lane of an EXEC reads is the same in both states: the registers, the coefficients of the sections in use
and that lane's delay words, all inside their spaces (R91). -/
structure SameLaneUsed (lane : Nat) (s t : State) : Prop where
  cfg : s.cfg = t.cfg
  ns : s.NS = t.NS
  k : s.K = t.K
  g : s.G = t.G
  coef : ∀ n < s.NS.toNat, coefsOf s.COEF n = coefsOf t.COEF n
  dly : SameLane lane s.NS.toNat s.DLY t.DLY
  fits_left : 4 * s.NS.toNat ≤ s.DLY.length
  fits_right : 4 * s.NS.toNat ≤ t.DLY.length

/-- The words of one lane in the burst (R33). -/
theorem memRead_outWords_lane {lane : Nat} (hl : lane < 2) (out : List Cplx) (p : Nat) :
    memRead (outWords out) (outAddr p + lane) = memRead (out.map (laneOf lane)) p := by
  induction out generalizing p with
  | nil => simp [outWords, memRead]
  | cons z zs ih =>
    cases p with
    | zero => interval_cases lane <;> rfl
    | succ p =>
      have hskip : memRead (outWords (z :: zs)) (outAddr (p + 1) + lane) =
          memRead (outWords zs) (outAddr p + lane) := by
        rw [show outAddr (p + 1) + lane = outAddr p + lane + 2 by simp only [outAddr]; omega]; rfl
      rw [hskip, ih]; rfl

theorem map_laneOf_outputGain (c : Config) (g : Word) (lane : Nat) (raw : List Cplx) :
    (outputGain c g raw).map (laneOf lane) = (raw.map (laneOf lane)).map (qmul c g) := by
  simp [outputGain, laneOf_cscale]

theorem map_laneOf_virtualSamples {lane : Nat} {x y : Cplx} (h : laneOf lane x = laneOf lane y) (k : Nat) :
    (virtualSamples x k).map (laneOf lane) = (virtualSamples y k).map (laneOf lane) := by
  cases k <;> simp [virtualSamples, h]

/-- EXECs that agree in what one lane reads agree in that lane's delay words and response words (R91). -/
theorem execPasses_sameLane {lane : Nat} (hl : lane < 2) {s t : State} (h : SameLaneUsed lane s t) {x y : Cplx}
    (hx : laneOf lane x = laneOf lane y) :
    SameLane lane s.NS.toNat (execPasses x s).2 (execPasses y t).2 ∧
    ∀ p, memRead (execPayload x s) (outAddr p + lane) = memRead (execPayload y t) (outAddr p + lane) := by
  obtain ⟨houts, hdly⟩ := sameLane_runPasses (c := s.cfg) hl h.coef (map_laneOf_virtualSamples hx s.K.toNat) h.fits_left
    h.fits_right h.dly
  unfold execPayload execPasses
  rw [← h.cfg, ← h.ns, ← h.k, ← h.g]
  refine ⟨hdly, fun p => ?_⟩
  rw [memRead_outWords_lane hl, memRead_outWords_lane hl, map_laneOf_outputGain, map_laneOf_outputGain, houts]

/-- The words of output `p` in a response stand after everything already undelivered and the header (R33, R34, R51). -/
theorem memRead_respond_output (op : BitVec 8) (st : Status) (payload : List Word) (s : State) (p lane : Nat) :
    memRead (respond op st payload s).rsp (s.rsp.length + 1 + 2 * p + lane) = memRead payload (outAddr p + lane) := by
  simp only [respond_rsp, Response.words, memRead, List.getD]
  rw [List.getElem?_append_right (by omega),
    show s.rsp.length + 1 + 2 * p + lane - s.rsp.length = outAddr p + lane + 1 by simp only [outAddr]; omega,
    List.getElem?_cons_succ]

/-- Settles O38: both EXECs succeed, and what one lane reads of the two states is the same. -/
theorem lanesAreIndependent : Obligations.LanesAreIndependent := by
  intro s t s' t' lane x y hl hs ht hsl htl hcfg hns hk hg hcoef hxy hdly hexec hexec'
  obtain rfl : execOk (sampleOperand s.cfg x.1 x.2) s = s' :=
    Host.Outcome.next.inj ((execExec_of_inv hs hsl x.1 x.2).symm.trans hexec)
  obtain rfl : execOk (sampleOperand t.cfg y.1 y.2) t = t' :=
    Host.Outcome.next.inj ((execExec_of_inv ht htl y.1 y.2).symm.trans hexec')
  have hused : SameLaneUsed lane s t :=
    ⟨hcfg, hns, hk, hg, fun _ _ => by rw [hcoef], hdly, hs.dly_fits hsl, hns ▸ ht.dly_fits htl⟩
  have hsample : laneOf lane (sampleOperand s.cfg x.1 x.2) = laneOf lane (sampleOperand t.cfg y.1 y.2) := by
    rw [← hcfg]
    interval_cases lane <;> exact congrArg (container s.cfg) hxy
  obtain ⟨hdly', hwords⟩ := execPasses_sameLane hl hused hsample
  exact ⟨hdly', fun p _ =>
    (memRead_respond_output _ _ _ _ p lane).trans ((hwords p).trans (memRead_respond_output _ _ _ _ p lane).symm)⟩

end Sys2Proof.Machine
end

