-- ==== Sys2Proof/Proofs/UnspecifiedStorage.lean ====
section
/-!
PROOFS. Proofs/UnspecifiedStorage.lean: no step tells two states apart that agree on what a command may read
(R23, R119).
-/

namespace Sys2Proof.Machine

/-! ### The state updates -/

theorem SameUsed.withCmd {s t : State} (h : SameUsed s t) (rest : List Word) :
    SameUsed { s with cmd := rest } { t with cmd := rest } :=
  ⟨h.cfg, h.life, rfl, h.rsp, h.rst, h.ns, h.k, h.g, h.coef, h.dly⟩

theorem SameUsed.respond {s t : State} (h : SameUsed s t) (op : BitVec 8) (st : Status) (payload : List Word) :
    SameUsed (respond op st payload s) (respond op st payload t) :=
  ⟨h.cfg, h.life, h.cmd, congrArg (· ++ _) h.rsp, h.rst, h.ns, h.k, h.g, h.coef, h.dly⟩

theorem SameUsed.raiseError {s t : State} (h : SameUsed s t) (op : BitVec 8) (st : Status) :
    SameUsed (raiseError op st s) (raiseError op st t) := h.respond op st []

/-- Of a cascade that is not live a command reads nothing but `LIFE` (R23). -/
theorem sameUsed_of_not_live {s t : State} (hl : s.LIFE.live = false) (hcfg : s.cfg = t.cfg) (hlife : s.LIFE = t.LIFE)
    (hcmd : s.cmd = t.cmd) (hrsp : s.rsp = t.rsp) (hrst : s.rst = t.rst) : SameUsed s t := by
  have hdead : s.LIFE.live = true → False := fun h => Bool.false_ne_true (hl.symm.trans h)
  exact ⟨hcfg, hlife, hcmd, hrsp, hrst, fun h => (hdead h).elim, fun h => (hdead h).elim, fun h => (hdead h).elim,
    fun h => (hdead h).elim, fun h => (hdead h).elim⟩

/-- New delay words that agree in the sections in use keep the relation (R107, R108). -/
theorem SameUsed.withDelays {s t : State} (h : SameUsed s t) (hl : s.LIFE.live = true) (life : Life) {d e : Memory}
    (hd : ∀ a < dlyUsed s.NS, memRead d a = memRead e a) :
    SameUsed { s with DLY := d, LIFE := life } { t with DLY := e, LIFE := life } :=
  ⟨h.cfg, rfl, h.cmd, h.rsp, h.rst, fun _ => h.ns hl, fun _ => h.k hl, fun _ => h.g hl, fun _ => h.coef hl, fun _ => hd⟩

/-- BUILD writes every word of the sections it puts in use, whatever the storage held (R106). -/
theorem SameUsed.build {s t : State} (h : SameUsed s t) (hs : Inv s) (ht : Inv t) {ns : BitVec 8} {k : BitVec 16}
    {payload : List Word} (hp : payload.length = 5 * ns.toNat) (hfit : ns.toNat ≤ s.cfg.NS_MAX) :
    SameUsed (buildState ns k payload s) (buildState ns k payload t) := by
  have hcs := hs.length_COEF
  have hds := hs.length_DLY
  have hct := ht.length_COEF
  have hdt := ht.length_DLY
  rw [← h.cfg] at hct hdt
  refine ⟨h.cfg, rfl, h.cmd, h.rsp, h.rst, fun _ => rfl, fun _ => rfl, fun _ => congrArg (qFromInt · _) h.cfg,
    fun _ a ha => ?_, fun _ a ha => ?_⟩
  · have ha' : a < payload.length := hp ▸ ha
    rw [memRead_buildState_COEF (by omega), memRead_buildState_COEF (by omega), if_pos ha', if_pos ha', h.cfg]
  · have ha' : a < 4 * ns.toNat := ha
    rw [buildState_DLY, buildState_DLY, memRead_clearDelays (by omega), memRead_clearDelays (by omega), if_pos ha',
      if_pos ha']

/-! ### EXEC, lane by lane -/

/-- Every used delay word is a word of one of the two lanes (R32). -/
theorem memRead_eq_of_sameLane {ns : Nat} {d e : Memory} (h : ∀ lane < 2, SameLane lane ns d e) :
    ∀ a < 4 * ns, memRead d a = memRead e a := by
  intro a ha
  obtain ⟨hre1, hre2⟩ := h 0 (by omega) (a / 4) (by omega)
  obtain ⟨him1, him2⟩ := h 1 (by omega) (a / 4) (by omega)
  simp only [w1Addr, w2Addr] at hre1 hre2 him1 him2
  obtain ha0 | ha1 | ha2 | ha3 :
      a = 4 * (a / 4) + 0 ∨ a = 4 * (a / 4) + 1 ∨ a = 4 * (a / 4) + 2 + 0 ∨ a = 4 * (a / 4) + 2 + 1 := by omega
  · rw [ha0]; exact hre1
  · rw [ha1]; exact him1
  · rw [ha2]; exact hre2
  · rw [ha3]; exact him2

/-- Two states no command can tell apart agree in what either lane of an EXEC reads. -/
theorem SameUsed.sameLaneUsed {s t : State} (h : SameUsed s t) (hs : Inv s) (ht : Inv t) (hl : s.LIFE.live = true)
    {lane : Nat} (hlane : lane < 2) : SameLaneUsed lane s t where
  cfg := h.cfg
  ns := h.ns hl
  k := h.k hl
  g := h.g hl
  coef n hn := by
    have hword : ∀ j < 5, memRead s.COEF (coefAddr n j) = memRead t.COEF (coefAddr n j) := fun j hj =>
      h.coef hl _ (by simp only [coefAddr, coefUsed]; omega)
    simp only [coefsOf, hword _ (show 0 < 5 by omega), hword _ (show 1 < 5 by omega), hword _ (show 2 < 5 by omega),
      hword _ (show 3 < 5 by omega), hword _ (show 4 < 5 by omega)]
  dly n hn := ⟨h.dly hl _ (by simp only [w1Addr, dlyUsed]; omega), h.dly hl _ (by simp only [w2Addr, dlyUsed]; omega)⟩
  fits_left := hs.dly_fits hl
  fits_right := h.ns hl ▸ ht.dly_fits (h.life ▸ hl)

/-- A successful EXEC answers the same words in both and leaves the same words in use (R107). -/
theorem SameUsed.exec {s t : State} (h : SameUsed s t) (hs : Inv s) (ht : Inv t) (hl : s.LIFE.live = true)
    (x : Cplx) : SameUsed (execOk x s) (execOk x t) := by
  have hlanes := fun (lane : Nat) (hlane : lane < 2) =>
    execPasses_sameLane hlane (h.sameLaneUsed hs ht hl hlane) (x := x) rfl
  have hpayload : execPayload x s = execPayload x t := by
    refine memory_ext (by rw [execPayload_length, execPayload_length, h.k hl]) fun a => ?_
    have hword := (hlanes (a % 2) (by omega)).2 (a / 2)
    rwa [outAddr, Nat.div_add_mod] at hword
  have hdly := h.withDelays hl .EXECUTING (memRead_eq_of_sameLane fun lane hlane => (hlanes lane hlane).1)
  rw [execOk, execOk, hpayload]
  exact hdly.respond _ _ _

/-! ### Commands and steps -/

theorem exec_sameUsed {i : Instr} {s t s' : State} (hs : Inv s) (ht : Inv t) (h : SameUsed s t)
    (he : exec i s = .next s') : ∃ t', exec i t = .next t' ∧ SameUsed s' t' := by
  cases i with
  | build ns k p =>
    obtain ⟨hp, ⟨e, hc, rfl⟩ | ⟨hc, rfl⟩⟩ := execBuild_cases he
    · exact ⟨_, (execBuild_eq hp t).trans (by rw [← h.cfg, ← h.life, hc]), h.raiseError _ _⟩
    · obtain ⟨-, -, -, hfit, -⟩ := (buildCheck_none_iff _ _ _ _).1 hc
      exact ⟨_, (execBuild_eq hp t).trans (by rw [← h.cfg, ← h.life, hc]), (h.build hs ht hp hfit).respond _ _ _⟩
  | exec re im =>
    cases hl : s.LIFE.live with
    | false =>
      obtain rfl := Host.Outcome.next.inj ((execExec_notLive re im hl).symm.trans he)
      exact ⟨_, execExec_notLive re im (h.life ▸ hl), h.raiseError _ _⟩
    | true =>
      obtain rfl := Host.Outcome.next.inj ((execExec_of_inv hs hl re im).symm.trans he)
      exact ⟨_, execExec_of_inv ht (h.life ▸ hl) re im, h.cfg ▸ h.exec hs ht hl _⟩
  | reset =>
    obtain ⟨hl, rfl⟩ | ⟨hl, -, rfl⟩ := execReset_cases he
    · exact ⟨_, execReset_notLive (h.life ▸ hl), h.raiseError _ _⟩
    · refine ⟨_, execReset_of_inv ht (h.life ▸ hl), (h.withDelays hl _ fun a ha => ?_).respond _ _ _⟩
      rw [memRead_clearDelays (hs.dly_fits hl), ← h.ns hl,
        memRead_clearDelays (h.ns hl ▸ ht.dly_fits (h.life ▸ hl)), if_pos ha, if_pos ha]
  | destroy =>
    obtain ⟨hl, rfl⟩ | ⟨hl, rfl⟩ := execDestroy_cases he
    · exact ⟨_, execDestroy_notLive (h.life ▸ hl), h.raiseError _ _⟩
    · have hreleased : SameUsed { releaseStorage s with LIFE := .DESTROYED }
          { releaseStorage t with LIFE := .DESTROYED } :=
        sameUsed_of_not_live rfl h.cfg rfl h.cmd h.rsp h.rst
      exact ⟨_, execDestroy_live (h.life ▸ hl), hreleased.respond _ _ _⟩

/-- Settles O52: the two blocks take the same branch of the step, since reset level, streams and parameters agree; what
it reads of the storage is what `SameUsed` compares. -/
theorem unspecifiedStorageNeverLeaks : Obligations.UnspecifiedStorageNeverLeaks := by
  intro s t s' hs ht h hstep
  have hstalled : t.stalled = s.stalled := State.stalled_congr h.cfg.symm h.rsp.symm
  obtain ⟨hr, rfl⟩ | ⟨hr, hst, rfl⟩ | ⟨hr, hst, i, rest, hd, -, he⟩ | ⟨hr, hst, w, rest, hd, rfl⟩ | ⟨hr, -, hd, rfl⟩ :=
    step_cases hstep
  · exact ⟨hardwareReset t, by simp [step, ← h.rst, hr], sameUsed_of_not_live rfl h.cfg rfl rfl rfl h.rst⟩
  · exact ⟨t, step_stalled (h.rst ▸ hr) (hstalled.trans hst), h⟩
  · rw [step_frame (h.rst ▸ hr) (hstalled.trans hst) (h.cmd ▸ hd)]
    exact exec_sameUsed (hs.withCmd rest) (ht.withCmd rest) (h.withCmd rest) he
  · exact ⟨_, step_illegal (h.rst ▸ hr) (hstalled.trans hst) (h.cmd ▸ hd), (h.withCmd rest).raiseError _ _⟩
  · exact ⟨t, step_incomplete (h.rst ▸ hr) (h.cmd ▸ hd), h⟩

end Sys2Proof.Machine
end

