-- ==== Sys2Proof/Proofs/Memory.lean ====
section
/-!
PROOFS. Proofs/Memory.lean: a write changes one word (R37, R39), the order of the output words (R33, R52), and the byte
transport (R35).
-/

namespace Sys2Proof.Machine

/-- Writing back the word that stands at an address changes nothing. -/
@[simp] theorem memWrite_memRead_self {m : Memory} {a : Nat} (h : a < m.length) : memWrite m a (memRead m a) = m := by
  simp [memWrite, memRead, h]

/-- Settles O21. -/
theorem writeChangesOneWord : Obligations.WriteChangesOneWord := fun _ _ _ v ha =>
  ⟨memRead_memWrite_self ha v, fun hba => memRead_memWrite_ne hba.symm _ v, length_memWrite _ _ v,
    memWrite_memRead_self ha⟩

/-- Settles O34: the even words of a burst are the `re` lane of its outputs, the odd words the `im` lane. -/
theorem outputWordsInProductionOrder : Obligations.OutputWordsInProductionOrder := by
  intro out
  refine ⟨outWords_length out, fun p hp => ?_⟩
  have hlane : ∀ lane < 2, memRead (outWords out) (outAddr p + lane) = laneOf lane out[p] := fun lane hl => by
    rw [memRead_outWords_lane hl]
    simp [memRead, hp]
  exact ⟨hlane 0 (by omega), hlane 1 (by omega)⟩

/-! ### The byte transport (R35) -/

/-- The four bytes of a word, the most significant first, are the word. -/
theorem append_bytesOfWord (w : Word) :
    w.extractLsb' 24 8 ++ w.extractLsb' 16 8 ++ w.extractLsb' 8 8 ++ w.extractLsb' 0 8 = w := by
  rw [BitVec.extractLsb'_append_extractLsb'_eq_extractLsb' (by omega),
    BitVec.extractLsb'_append_extractLsb'_eq_extractLsb' (by omega),
    BitVec.extractLsb'_append_extractLsb'_eq_extractLsb' (by omega)]
  exact BitVec.extractLsb'_eq_self

/-- A word's bytes, then a byte stream, read back as the word, then the stream's words. -/
theorem wordsOfBytes_bytesOfWord_append (w : Word) (bs : List Byte) :
    wordsOfBytes (bytesOfWord w ++ bs) = w :: wordsOfBytes bs :=
  congrArg (· :: wordsOfBytes bs) (append_bytesOfWord w)

@[simp] theorem wordsOfBytes_bytesOfWords (ws : List Word) : wordsOfBytes (bytesOfWords ws) = ws := by
  induction ws with
  | nil => rfl
  | cons w ws ih =>
    rw [bytesOfWords, List.flatMap_cons, wordsOfBytes_bytesOfWord_append]
    exact congrArg (w :: ·) ih

/-- Appended bitvectors as numbers: the high part counts in units of the low part's range. -/
theorem toNat_append_eq_add {m n : Nat} (x : BitVec m) (y : BitVec n) : (x ++ y).toNat = 2 ^ n * x.toNat + y.toNat := by
  rw [BitVec.toNat_append, ← Nat.shiftLeft_add_eq_or_of_lt y.isLt, Nat.shiftLeft_eq, Nat.mul_comm]

theorem append_bytes_eq_ofNat (b0 b1 b2 b3 : Byte) :
    b3 ++ b2 ++ b1 ++ b0 =
      BitVec.ofNat 32 (b0.toNat + 2 ^ 8 * b1.toNat + 2 ^ 16 * b2.toNat + 2 ^ 24 * b3.toNat) := by
  apply BitVec.eq_of_toNat_eq
  simp only [toNat_append_eq_add, BitVec.toNat_ofNat]
  omega

/-- Settles O7. -/
theorem byteTransportIsLittleEndian : Obligations.ByteTransportIsLittleEndian := by
  refine ⟨fun ws => ⟨wordsOfBytes_bytesOfWords ws, ?_⟩, fun b0 b1 b2 b3 rest => ?_, by decide⟩
  · rw [decodeBytes, wordsOfBytes_bytesOfWords]
  · rw [wordsOfBytes, append_bytes_eq_ofNat]

end Sys2Proof.Machine
end

