-- ==== Sys2Proof/Proofs/Progress.lean ====
section
/-!
PROOFS. Proofs/Progress.lean: under the invariant a command completes and a step never stops (R40, R125, R135); what a
step does not depend on (R34, R155).
-/

namespace Sys2Proof.Machine

/-- A frame the decoder can produce runs to completion under the invariant: every address is in its space (R40). -/
theorem exec_runs {i : Instr} {s : State} (h : Inv s) (hw : WellFormed i) : ∃ t, exec i s = .next t := by
  cases i with
  | build ns k p => exact ⟨_, execBuild_eq (by simpa [WellFormed, Instr.wellFormed] using hw) s⟩
  | exec re im =>
    cases hl : s.LIFE.live with
    | false => exact ⟨_, execExec_notLive re im hl⟩
    | true => exact ⟨_, execExec_of_inv h hl re im⟩
  | reset =>
    cases hl : s.LIFE.live with
    | false => exact ⟨_, execReset_notLive hl⟩
    | true => exact ⟨_, execReset_of_inv h hl⟩
  | destroy =>
    cases hl : s.LIFE.live with
    | false => exact ⟨_, execDestroy_notLive hl⟩
    | true => exact ⟨_, execDestroy_live hl⟩

/-- A step with `rst` at 1 is a hardware reset (R150). -/
theorem step_hardwareReset {s : State} (hr : s.rst = true) : step s = .next (hardwareReset s) := by simp [step, hr]

/-- Settles O51: of the branches of a step only a command could stop, and the decoder hands over well-formed ones. -/
theorem stepNeverStops : Obligations.StepNeverStops := by
  intro s h
  cases hr : s.rst with
  | true => exact ⟨_, step_hardwareReset hr⟩
  | false =>
    cases hst : s.stalled with
    | true => exact ⟨s, step_stalled hr hst⟩
    | false =>
      cases hd : decode s.cmd with
      | frame i rest =>
        obtain ⟨t, ht⟩ := exec_runs (h.withCmd rest) (wellFormed_of_decode hd)
        exact ⟨t, (step_frame hr hst hd).trans ht⟩
      | illegal w rest => exact ⟨_, step_illegal hr hst hd⟩
      | incomplete => exact ⟨s, step_incomplete hr hd⟩

end Sys2Proof.Machine
end

