-- ==== Sys2Proof/Proofs/Handshakes.lean ====
section
/-!
PROOFS. Proofs/Handshakes.lean: the words that move at an edge of `clk`, at the ports and on the link (R60, R155).
-/

namespace Sys2Proof.Machine

/-- An edge with `rst` at 0 writes the two streams and the reset level and nothing else (R60). -/
theorem portEdge_of_rst_false {i : PortIn} (h : i.rst = false) (ready : Bool) (s : State) :
    portEdge i ready s =
      { s with
        rst := false
        cmd := if i.cmdValid && (portOut i ready s).cmdReady then s.cmd ++ [i.cmdData] else s.cmd
        rsp := if i.rspReady then s.rsp.tail else s.rsp } := by
  obtain ⟨cfg, life, ns, k, g, coef, dly, cmd, rsp, rst, draws⟩ := s
  cases rsp <;> simp [portEdge, h]

/-- Settles O56: `cmd_ready` is what `portOut_cmdReady_iff` says, and `rsp_data` is the front of the response stream. -/
theorem handshakeMovesOneWordInOrder : Obligations.HandshakeMovesOneWordInOrder := by
  intro s i ready hi
  have hbusy_iff : decode s.cmd ≠ .incomplete ∨ s.rsp ≠ [] ↔ s.idle = false := by
    rw [← Bool.not_eq_true, State.idle_iff, not_and_or]
  rw [portEdge_of_rst_false hi]
  refine ⟨fun hv hready => by simp [hv, hready], fun h => ?_, fun w hready hw => ?_, fun h => ?_, by simp [hi],
    fun hlow => hbusy_iff.2 ?_, fun hbusy hfull => ?_, rfl, rfl, rfl, rfl, rfl, rfl, rfl, rfl⟩
  · rcases h with h | h <;> simp [h]
  · rw [portOut_rspData_of_rst_false hi, List.head?_eq_some_iff] at hw
    obtain ⟨rest, hrest⟩ := hw
    simp [hready, hrest]
  · rcases h with h | hnone
    · simp [h]
    · have hempty : s.rsp = [] := by simpa [hi] using hnone
      simp [hempty]
  · cases hidle : s.idle with
    | false => rfl
    | true => exact absurd ((portOut_cmdReady_iff i ready s).2 ⟨hi, .inl hidle⟩) (by simp [hlow])
  · rw [← Bool.not_eq_true, portOut_cmdReady_iff, hbusy_iff.1 hbusy]
    rintro ⟨-, hidle | ⟨-, hroom⟩⟩
    · exact absurd hidle Bool.false_ne_true
    · omega

/-! ### An edge on the link -/

/-- How many command words move at an edge, if the host has one to send: 1 when it offers and `cmd_ready` is 1. -/
def Link.offered (l : Link) (offer accept ready : Bool) : Nat :=
  (offer && (portOut (l.portIn offer accept) ready l.block).cmdReady).toNat

theorem append_take_toNat (b : Bool) (s ws : List Word) :
    s ++ ws.take b.toNat = if b && !ws.isEmpty then s ++ [ws.headD 0] else s := by
  cases b <;> cases ws <;> simp

theorem drop_toNat (b : Bool) (ws : List Word) : ws.drop b.toNat = if b then ws.tail else ws := by
  cases b <;> simp

/-- Everything an edge does: on each channel at most one word moves, from the front of one stream to the end of the
other, and the block changes in nothing else (R34, R60). -/
theorem Link.next_edge {l : Link} (hr : l.block.rst = false) (offer accept ready : Bool) :
    l.next (.edge offer accept ready) =
      { block := { l.block with
          cmd := l.block.cmd ++ l.toSend.take (l.offered offer accept ready)
          rsp := l.block.rsp.drop accept.toNat }
        toSend := l.toSend.drop (l.offered offer accept ready)
        taken := l.taken ++ l.block.rsp.take accept.toNat } := by
  have hi : (l.portIn offer accept).rst = false := rfl
  have htaken : l.taken ++ l.block.rsp.take accept.toNat =
      if accept then l.taken ++ l.block.rsp.head?.toList else l.taken := by
    cases accept <;> simp [List.take_one]
  rw [Link.next, portEdge_of_rst_false hi, portOut_rspData_of_rst_false hi, htaken, Link.offered, append_take_toNat,
    drop_toNat, drop_toNat, Bool.and_right_comm]
  simp only [hr]
  rfl

/-- On a block with undelivered words a command word moves only into free room of the input buffer (R155). -/
theorem Link.offered_of_rsp_ne_nil {l : Link} (hrsp : l.block.rsp ≠ []) (offer accept ready : Bool) :
    l.offered offer accept ready = 0 ∨
      l.offered offer accept ready = 1 ∧ l.block.cmd.length < l.block.cfg.cmdBuf := by
  cases hready : (portOut (l.portIn offer accept) ready l.block).cmdReady with
  | false => simp [Link.offered, hready]
  | true =>
    obtain ⟨-, hidle | ⟨-, hroom⟩⟩ := (portOut_cmdReady_iff _ _ _).1 hready
    · exact absurd ((State.idle_iff _).1 hidle).2 hrsp
    · cases offer <;> simp [Link.offered, hready, hroom]

/-- Settles O57, by induction on the events: an undelivered word keeps the engine stalled and the block from being idle,
so a step changes nothing and an edge takes a word only into free room. -/
theorem engineHoldsUntilTheResponseIsAccepted : Obligations.EngineHoldsUntilTheResponseIsAccepted := by
  refine ⟨fun s => step_stalled, fun l schedule hr hst hdeaf n => ?_⟩
  have hrsp : l.block.rsp ≠ [] := fun h => by simp [h] at hst
  induction n with
  | zero => exact ⟨[], rfl, by simp [Link.run], rfl, .inl rfl⟩
  | succ n ih =>
    obtain ⟨sent, hsend, hblock, htaken, hroom⟩ := ih
    rw [Link.run]
    generalize l.run schedule n = ln at hsend hblock htaken ⊢
    cases hev : schedule n with
    | engine =>
      have hstep : step ln.block = .next ln.block := by rw [hblock]; exact step_stalled hr hst
      rw [Link.next_engine hstep]
      exact ⟨sent, hsend, hblock, htaken, hroom⟩
    | edge offer accept ready =>
      obtain rfl : accept = false := by
        cases accept with
        | false => rfl
        | true => exact absurd hev (hdeaf n offer ready)
      rw [Link.next_edge (by rw [hblock]; exact hr)]
      refine ⟨sent ++ ln.toSend.take (ln.offered offer false ready), by simp [hsend], by simp [hblock],
        by simp [htaken], ?_⟩
      rcases Link.offered_of_rsp_ne_nil (by rw [hblock]; exact hrsp) offer false ready with hnone | ⟨hone, hfree⟩
      · simpa [hnone] using hroom
      · right
        rw [hblock] at hfree
        simp only [hone, List.length_append, List.length_take] at hfree ⊢
        omega

end Sys2Proof.Machine
end

