-- ==== Sys2Proof/Proofs/FairHandshakes.lean ====
section
/-!
PROOFS. Proofs/FairHandshakes.lean: a fair schedule brings the link to rest, with the words of the run of a reading host
(R34, R51, R155, R161). No event changes what the run will come to (`Link.outcome_next`), every event that changes the
link at all lessens the work left (`Link.next_eq_or_work_lt`), and while there is work a fair schedule has such an event
(`Link.exists_next_ne`).
-/

namespace Sys2Proof.Machine

/-! ### A step, and a run of a reading host, on a longer command stream -/

theorem Inv.withStreams {s : State} (h : Inv s) (cmd rsp : List Word) : Inv { s with cmd := cmd, rsp := rsp } :=
  h.congr rfl rfl rfl rfl rfl rfl rfl

/-- A step on a whole frame or an illegal header completes and consumes words; it makes the same step, with the same
response words `out`, when more command words follow and nothing is undelivered (R34, R57). -/
theorem step_pending {s : State} (h : Inv s) (hr : s.rst = false) (hst : s.stalled = false)
    (hp : decode s.cmd ≠ .incomplete) :
    ∃ t out, step s = .next t ∧ t.rst = false ∧ t.cmd.length < s.cmd.length ∧ t.rsp = s.rsp ++ out ∧
      ∀ more, step { s with cmd := s.cmd ++ more, rsp := [] } = .next { t with cmd := t.cmd ++ more, rsp := out } := by
  cases hd : decode s.cmd with
  | incomplete => exact absurd hd hp
  | frame i rest =>
    obtain ⟨t, ht⟩ := exec_runs (h.withCmd rest) (wellFormed_of_decode hd)
    obtain ⟨hcmd, ⟨out, hout⟩, hrst, -⟩ := exec_keeps_streams ht
    refine ⟨t, out, (step_frame hr hst hd).trans ht, hrst.trans hr, hcmd ▸ length_of_decode_frame hd, hout.symm,
      fun more => ?_⟩
    have hexec := exec_withStreams ht (rest ++ more) []
    rw [← hout, List.drop_left, List.nil_append] at hexec
    rw [hcmd]
    exact (step_frame (s := { s with cmd := s.cmd ++ more, rsp := [] }) hr (State.stalled_of_rsp_nil rfl)
      (decode_append_frame hd more)).trans hexec
  | illegal w rest =>
    exact ⟨_, _, step_illegal hr hst hd, hr, length_of_decode_illegal hd, execIllegal_rsp _ _, fun more =>
      step_illegal hr (State.stalled_of_rsp_nil rfl) (decode_append_illegal hd more)⟩

/-- With no whole frame a run only hands over what is undelivered. -/
theorem hostRun_incomplete {s : State} (hr : s.rst = false) (hd : decode s.cmd = .incomplete) (n : Nat) :
    hostRun n s = some ({ s with rsp := [] }, s.rsp) := by
  induction n generalizing s with
  | zero => rfl
  | succ n ih =>
    rw [hostRun_succ n (step_incomplete (s := { s with rsp := [] }) hr hd), ih (s := { s with rsp := [] }) hr hd]
    simp

/-- A run of as many steps as there are command words has consumed every frame: more steps change nothing. -/
theorem hostRun_of_length_le {n k : Nat} {s : State} (h : Inv s) (hr : s.rst = false) (hn : s.cmd.length ≤ n)
    (hk : s.cmd.length ≤ k) : hostRun n s = hostRun k s := by
  induction n generalizing k s with
  | zero =>
    have hd : decode s.cmd = .incomplete := by rw [List.length_eq_zero_iff.1 (Nat.le_zero.1 hn)]; rfl
    rw [hostRun_incomplete hr hd, hostRun_incomplete hr hd]
  | succ n ih =>
    by_cases hd : decode s.cmd = .incomplete
    · rw [hostRun_incomplete hr hd, hostRun_incomplete hr hd]
    · obtain ⟨t, -, hstep, hrst, hlt, -, -⟩ :=
        step_pending (h.withStreams s.cmd []) hr (State.stalled_of_rsp_nil rfl) hd
      simp only at hlt
      obtain ⟨k, rfl⟩ : ∃ j, k = j + 1 := ⟨k - 1, by omega⟩
      rw [hostRun_succ n hstep, hostRun_succ k hstep,
        ih (k := k) (stepKeepsTheInvariant _ _ (h.withStreams s.cmd []) hstep) hrst (by omega) (by omega)]

/-! ### What the link comes to -/

/-- A block that meets the invariant and is not in reset. -/
structure Link.Running (l : Link) : Prop where
  inv : Inv l.block
  rst : l.block.rst = false

/-- The block as it would be had it accepted every word still to send and the host taken every response word. -/
def Link.caughtUp (l : Link) : State := { l.block with cmd := l.block.cmd ++ l.toSend, rsp := [] }

/-- The last state, and all the words the host has taken in the end, of a run in which it reads between steps. -/
def Link.outcome (l : Link) : Option (State × List Word) :=
  (hostRun (l.block.cmd.length + l.toSend.length) l.caughtUp).map (fun r => (r.1, l.taken ++ l.block.rsp ++ r.2))

/-- An engine event waits or holds, which leaves the link as it is, or runs the step of `step_pending`. -/
theorem Link.next_engine_cases {l : Link} (h : l.Running) :
    ((l.block.stalled = true ∨ decode l.block.cmd = .incomplete) ∧ l.next .engine = l) ∨
    ∃ t out, l.next .engine = { l with block := t } ∧ Inv t ∧ t.rst = false ∧
      t.cmd.length < l.block.cmd.length ∧ t.rsp = l.block.rsp ++ out ∧
      step l.caughtUp = .next { t with cmd := t.cmd ++ l.toSend, rsp := out } := by
  cases hst : l.block.stalled with
  | true => exact .inl ⟨.inl rfl, Link.next_engine (step_stalled h.rst hst)⟩
  | false =>
    by_cases hd : decode l.block.cmd = .incomplete
    · exact .inl ⟨.inr hd, Link.next_engine (step_incomplete h.rst hd)⟩
    · obtain ⟨t, out, hstep, hrst, hlt, hrsp, hmore⟩ := step_pending h.inv h.rst hst hd
      exact .inr ⟨t, out, Link.next_engine hstep, stepKeepsTheInvariant _ _ h.inv hstep, hrst, hlt, hrsp, hmore _⟩

theorem Link.Running.next {l : Link} (h : l.Running) (e : Event) : (l.next e).Running := by
  cases e with
  | edge offer accept ready =>
    rw [Link.next_edge h.rst]
    exact ⟨h.inv.withStreams _ _, h.rst⟩
  | engine =>
    obtain ⟨-, hkeep⟩ | ⟨t, out, hnext, hinv, hrst, -⟩ := Link.next_engine_cases h
    · rwa [hkeep]
    · rw [hnext]
      exact ⟨hinv, hrst⟩

/-- No event changes what the link comes to: an edge moves words along, and an engine event is a step of the run. -/
theorem Link.outcome_next {l : Link} (h : l.Running) (e : Event) : (l.next e).outcome = l.outcome := by
  cases e with
  | edge offer accept ready =>
    have hlen : (l.block.cmd ++ l.toSend.take (l.offered offer accept ready)).length +
        (l.toSend.drop (l.offered offer accept ready)).length = l.block.cmd.length + l.toSend.length := by
      simp only [List.length_append, List.length_take, List.length_drop]; omega
    rw [Link.next_edge h.rst]
    simp only [Link.outcome, Link.caughtUp, hlen, List.append_assoc, List.take_append_drop]
  | engine =>
    obtain ⟨-, hkeep⟩ | ⟨t, out, hnext, hinv, hrst, hlt, hrsp, hstep⟩ := Link.next_engine_cases h
    · rw [hkeep]
    · obtain ⟨n, hn⟩ : ∃ n, l.block.cmd.length + l.toSend.length = n + 1 :=
        ⟨l.block.cmd.length + l.toSend.length - 1, by omega⟩
      have hrun := hostRun_of_length_le (n := t.cmd.length + l.toSend.length) (k := n)
        (hinv.withStreams (t.cmd ++ l.toSend) []) hrst (by simp) (by simp; omega)
      rw [hnext, Link.outcome, Link.outcome, hn, hostRun_succ n hstep,
        hostRun_withRsp n { t with cmd := t.cmd ++ l.toSend, rsp := out } out, ← hrun]
      simp [Link.caughtUp, Function.comp_def, hrsp]

/-! ### The link comes to rest -/

/-- No whole frame waits, every command word is sent and every response word taken. -/
structure Link.Settled (l : Link) : Prop where
  cmd : decode l.block.cmd = .incomplete
  toSend : l.toSend = []
  rsp : l.block.rsp = []

theorem Link.Settled.next {l : Link} (h : l.Settled) (hr : l.block.rst = false) (e : Event) : l.next e = l := by
  cases e with
  | engine => exact Link.next_engine (step_incomplete hr h.cmd)
  | edge offer accept ready => exact Link.next_edge_quiet hr (.inr (.inl h.toSend)) (.inr h.rsp)

/-- What a settled link comes to is what it is. -/
theorem Link.Settled.outcome {l : Link} (h : l.Settled) (hr : l.block.rst = false) :
    l.outcome = some (l.block, l.taken) := by
  have hcaught : l.caughtUp = l.block := by rw [Link.caughtUp, h.toSend, List.append_nil, ← h.rsp]
  have hempty : { l.block with rsp := [] } = l.block := by rw [← h.rsp]
  rw [Link.outcome, hcaught, hostRun_incomplete hr h.cmd, hempty]
  simp [h.rsp]

/-- The work left, in lexicographic order: the command words no command has consumed (a step lessens them, whatever it
answers), then the words still to cross a channel. -/
def Link.work (l : Link) : ℕ ×ₗ ℕ :=
  toLex (l.block.cmd.length + l.toSend.length, l.toSend.length + l.block.rsp.length)

theorem Link.next_eq_or_work_lt {l : Link} (h : l.Running) (e : Event) : l.next e = l ∨ (l.next e).work < l.work := by
  cases e with
  | engine =>
    obtain ⟨-, hkeep⟩ | ⟨t, out, hnext, -, -, hlt, -⟩ := Link.next_engine_cases h
    · exact .inl hkeep
    · right
      rw [hnext, Link.work, Link.work, Prod.Lex.toLex_lt_toLex]
      exact .inl (Nat.add_lt_add_right hlt _)
  | edge offer accept ready =>
    rw [Link.next_edge h.rst]
    generalize l.offered offer accept ready = i
    generalize accept.toNat = j
    have hsend := List.take_append_drop i l.toSend
    have hrsp := List.take_append_drop j l.block.rsp
    by_cases hquiet : l.toSend.take i = [] ∧ l.block.rsp.take j = []
    · obtain ⟨hnone, hnone'⟩ := hquiet
      rw [hnone, List.nil_append] at hsend
      rw [hnone', List.nil_append] at hrsp
      left
      rw [hnone, hnone', hsend, hrsp, List.append_nil, List.append_nil]
    · have hsendLen := congrArg List.length hsend
      have hrspLen := congrArg List.length hrsp
      rw [List.length_append] at hsendLen hrspLen
      rw [← List.length_eq_zero_iff, ← List.length_eq_zero_iff] at hquiet
      right
      rw [Link.work, Link.work, Prod.Lex.toLex_lt_toLex]
      exact .inr ⟨by simp only [List.length_append]; omega, by simp only; omega⟩

theorem drop_one_ne_self {ws : List Word} (h : ws ≠ []) : ws.drop 1 ≠ ws := by
  cases ws with
  | nil => exact absurd rfl h
  | cons w ws => simp

/-- While the link is not settled, a fair schedule has an event yet to come that would change it: one that takes a
response word, else one that runs a command, else one that sends a command word to the idle block (R60, R142). -/
theorem Link.exists_next_ne {l : Link} {schedule : Nat → Event} (h : l.Running) (hf : Fair schedule)
    (hs : ¬ l.Settled) (n : Nat) : ∃ m, n ≤ m ∧ l.next (schedule m) ≠ l := by
  by_cases hrsp : l.block.rsp = []
  · by_cases hd : decode l.block.cmd = .incomplete
    · have hsend : l.toSend ≠ [] := fun hsend => hs ⟨hd, hsend, hrsp⟩
      obtain ⟨m, hm, accept, ready, hev⟩ := hf.offers n
      refine ⟨m, hm, fun heq => ?_⟩
      have hready : (portOut (l.portIn true accept) ready l.block).cmdReady = true :=
        (portOut_cmdReady_iff _ _ _).2 ⟨rfl, .inl ((State.idle_iff _).2 ⟨hd, hrsp⟩)⟩
      rw [hev, Link.next_edge h.rst, Link.offered, hready] at heq
      exact drop_one_ne_self hsend (congrArg Link.toSend heq)
    · obtain ⟨m, hm, hev⟩ := hf.engine n
      refine ⟨m, hm, fun heq => ?_⟩
      obtain ⟨hst | hd', -⟩ | ⟨t, out, hnext, -, -, hlt, -⟩ := Link.next_engine_cases h
      · simp [hrsp] at hst
      · exact hd hd'
      · rw [hev, hnext] at heq
        exact hlt.ne (congrArg (fun l => l.block.cmd.length) heq)
  · obtain ⟨m, hm, offer, ready, hev⟩ := hf.accepts n
    refine ⟨m, hm, fun heq => ?_⟩
    rw [hev, Link.next_edge h.rst] at heq
    exact drop_one_ne_self hrsp (congrArg (fun l => l.block.rsp) heq)

/-! ### Along a schedule -/

theorem Link.Running.run {l : Link} (h : l.Running) (schedule : Nat → Event) (n : Nat) :
    (l.run schedule n).Running := by
  induction n with
  | zero => exact h
  | succ n ih => exact ih.next _

theorem Link.outcome_run {l : Link} (h : l.Running) (schedule : Nat → Event) (n : Nat) :
    (l.run schedule n).outcome = l.outcome := by
  induction n with
  | zero => rfl
  | succ n ih => exact (Link.outcome_next (h.run schedule n) _).trans ih

theorem Link.run_eq_or_work_lt {l : Link} (h : l.Running) (schedule : Nat → Event) {n m : Nat} (hnm : n ≤ m) :
    l.run schedule m = l.run schedule n ∨ (l.run schedule m).work < (l.run schedule n).work := by
  induction m, hnm using Nat.le_induction with
  | base => exact .inl rfl
  | succ m _ ih =>
    rw [Link.run]
    rcases Link.next_eq_or_work_lt (h.run schedule m) (schedule m) with hkeep | hlt
    · rwa [hkeep]
    · rcases ih with heq | hlt'
      · exact .inr (heq ▸ hlt)
      · exact .inr (hlt.trans hlt')

/-- The link settles: at the event after which the work is least, for a fair schedule would lessen it again. -/
theorem Link.exists_settled {l : Link} {schedule : Nat → Event} (h : l.Running) (hf : Fair schedule) :
    ∃ n, (l.run schedule n).Settled := by
  obtain ⟨n, hleast⟩ : ∃ n, ∀ m, ¬ (l.run schedule m).work < (l.run schedule n).work :=
    ⟨_, Function.not_lt_argmin fun n => (l.run schedule n).work⟩
  refine ⟨n, by_contra fun hs => ?_⟩
  obtain ⟨m, hm, hne⟩ := Link.exists_next_ne (h.run schedule n) hf hs n
  have hstay : l.run schedule m = l.run schedule n :=
    (Link.run_eq_or_work_lt h schedule hm).resolve_right (hleast m)
  rcases Link.next_eq_or_work_lt (h.run schedule n) (schedule m) with heq | hlt
  · exact hne heq
  · exact hleast (m + 1) (by rwa [Link.run, hstay])

theorem Link.Settled.run_eq {l : Link} (h : l.Running) {schedule : Nat → Event} {n : Nat}
    (hs : (l.run schedule n).Settled) {m : Nat} (hnm : n ≤ m) : l.run schedule m = l.run schedule n := by
  induction m, hnm using Nat.le_induction with
  | base => rfl
  | succ m _ ih => rw [Link.run, ih, hs.next (h.run schedule n).rst]

/-- Settles O58: the link settles, and what it has come to then is what it was to come to at the start. -/
theorem fairHandshakesAnswerEveryFrame : Obligations.FairHandshakesAnswerEveryFrame := by
  intro l schedule hi hr hf
  have h : l.Running := ⟨hi, hr⟩
  obtain ⟨n, hs⟩ := Link.exists_settled h hf
  have hout : l.outcome = some ((l.run schedule n).block, (l.run schedule n).taken) :=
    (Link.outcome_run h schedule n).symm.trans (hs.outcome (h.run schedule n).rst)
  obtain ⟨⟨t, words⟩, hrun, heq⟩ := Option.map_eq_some_iff.1 hout
  obtain ⟨rfl, htaken⟩ := Prod.mk.inj heq
  refine ⟨_, l.block.rsp ++ words, ?_, hs.cmd, n, fun m hm => ?_⟩
  · rw [hostRun_withRsp _ { l.block with cmd := l.block.cmd ++ l.toSend } l.block.rsp]
    exact Option.map_eq_some_iff.2 ⟨_, hrun, rfl⟩
  · rw [hs.run_eq h hm, ← List.append_assoc, htaken, ← hs.toSend]

end Sys2Proof.Machine
end

