-- ==== Sys2Proof/Proofs/Encoding.lean ====
section
/-!
PROOFS. Proofs/Encoding.lean: the decoder and the encoder undo each other (R45 to R50, R57), and the opcode map (R54).
-/

namespace Sys2Proof

theorem wellFormed_build_iff (ns : BitVec 8) (k : BitVec 16) (payload : List Word) :
    WellFormed (.build ns k payload) ↔ payload.length = 5 * ns.toNat := by simp [WellFormed, Instr.wellFormed]

/-! ### The decoder on the header of each command -/

/-- A header with BUILD's opcode byte is made of it and the header's own fields (R46). -/
theorem eq_headerWord_of_opcField {h : Word} (ho : opcField h = 0x01#8) :
    h = headerWord Op.BUILD.code (nsField h) (kField h) := by
  have hfields := headerWord_fields h
  rw [ho] at hfields
  exact hfields.symm

/-- A BUILD header takes the words it announces, or waits for them (R45, R47). -/
theorem decode_buildHeader (ns : BitVec 8) (k : BitVec 16) (ws : List Word) :
    decode (headerWord Op.BUILD.code ns k :: ws) =
      if ws.length < 5 * ns.toNat then .incomplete
      else .frame (.build ns k (ws.take (5 * ns.toNat))) (ws.drop (5 * ns.toNat)) := by
  have hopc : opcField (headerWord Op.BUILD.code ns k) = 0x01#8 := opcField_headerWord _ _ _
  rw [decode_cons_eq, if_pos hopc, nsField_headerWord, kField_headerWord]

theorem decode_build {ns : BitVec 8} {payload : List Word} (h : payload.length = 5 * ns.toNat) (k : BitVec 16)
    (rest : List Word) :
    decode (headerWord Op.BUILD.code ns k :: (payload ++ rest)) = .frame (.build ns k payload) rest := by
  rw [decode_buildHeader, if_neg (by simp [h]), List.take_left' h, List.drop_left' h]

theorem decode_exec (re im : Word) (rest : List Word) :
    decode (0x02000000#32 :: re :: im :: rest) = .frame (.exec re im) rest := by
  simp [decode_cons_eq, opcField]

theorem decode_reset (rest : List Word) : decode (0x03000000#32 :: rest) = .frame .reset rest := by
  simp [decode_cons_eq, opcField]

theorem decode_destroy (rest : List Word) : decode (0x04000000#32 :: rest) = .frame .destroy rest := by
  simp [decode_cons_eq, opcField]

/-- Settles O1: the header written for a command is the one the decoder reads it from. -/
theorem decodeOfEncodeIsTheCommand : Obligations.DecodeOfEncodeIsTheCommand := by
  intro i rest hw
  cases i with
  | build ns k payload => exact decode_build ((wellFormed_build_iff ns k payload).1 hw) k rest
  | exec re im => exact decode_exec re im rest
  | reset => exact decode_reset rest
  | destroy => exact decode_destroy rest

/-! ### Encode of decode -/

/-- Everything a decoded frame can be, with the words it was read from (R47 to R50, R57). -/
theorem decode_frame_cases {ws rest : List Word} {i : Instr} (h : decode ws = .frame i rest) :
    (∃ ns k payload, payload.length = 5 * ns.toNat ∧ i = .build ns k payload ∧
      ws = headerWord Op.BUILD.code ns k :: (payload ++ rest)) ∨
    (∃ re im, i = .exec re im ∧ ws = 0x02000000#32 :: re :: im :: rest) ∨
    (i = .reset ∧ ws = 0x03000000#32 :: rest) ∨
    (i = .destroy ∧ ws = 0x04000000#32 :: rest) := by
  cases ws with
  | nil => cases h
  | cons w tl =>
    rw [decode_cons_eq] at h
    split_ifs at h with hbuild hlen hexec hlen hreset hdestroy <;> obtain ⟨rfl, rfl⟩ := Decoded.frame.inj h
    · refine .inl ⟨_, _, _, List.length_take_of_le (Nat.le_of_not_lt hlen), rfl, ?_⟩
      rw [List.take_append_drop, ← eq_headerWord_of_opcField hbuild]
    · obtain ⟨re, im, rest, rfl⟩ : ∃ re im rest, tl = re :: im :: rest := by
        match tl with
        | re :: im :: rest => exact ⟨re, im, rest, rfl⟩
        | [_] | [] => exact absurd (by simp) hlen
      exact .inr (.inl ⟨re, im, rfl, by rw [hexec]; rfl⟩)
    · exact .inr (.inr (.inl ⟨rfl, by rw [hreset]⟩))
    · exact .inr (.inr (.inr ⟨rfl, by rw [hdestroy]⟩))

/-- Settles O2: the words a frame was read from are the ones its command encodes to. -/
theorem encodeOfDecodeIsTheStream : Obligations.EncodeOfDecodeIsTheStream := by
  intro ws rest i hd
  refine ⟨wellFormed_of_decode hd, ?_⟩
  obtain ⟨ns, k, payload, -, rfl, rfl⟩ | ⟨re, im, rfl, rfl⟩ | ⟨rfl, rfl⟩ | ⟨rfl, rfl⟩ := decode_frame_cases hd <;> rfl

/-- Settles O6: the words are headers and payloads of the decoder's four commands, or match no row. -/
theorem writtenOutWordsDecode : Obligations.WrittenOutWordsDecode :=
  ⟨decode_build (ns := 1) (payload := [0x00800000, 0x00800000, 0x00000000, 0xFF800000, 0x00000000]) rfl 2 [],
    decode_exec _ _ _, decode_reset _, decode_destroy _, by decide, by decide⟩

/-! ### The opcode map (R54) -/

/-- The header a selected row announces (R54). -/
theorem selectRow_cases {h : Word} {op : Op} (hs : selectRow h = some op) :
    (op = .BUILD ∧ opcField h = 0x01#8) ∨ (op = .EXEC ∧ h = 0x02000000#32) ∨
    (op = .RESET ∧ h = 0x03000000#32) ∨ (op = .DESTROY ∧ h = 0x04000000#32) := by
  rw [selectRow_eq] at hs
  split_ifs at hs with h1 h2 h3 h4 <;> obtain rfl := Option.some.inj hs
  · exact .inl ⟨rfl, h1⟩
  · exact .inr (.inl ⟨rfl, h2⟩)
  · exact .inr (.inr (.inl ⟨rfl, h3⟩))
  · exact .inr (.inr (.inr ⟨rfl, h4⟩))

theorem selectRow_eq_build_iff (h : Word) : selectRow h = some .BUILD ↔ opcField h = 0x01#8 :=
  ⟨fun hs => by simpa using selectRow_cases hs, fun h1 => by rw [selectRow_eq, if_pos h1]⟩

theorem selectRow_eq_exec_iff (h : Word) : selectRow h = some .EXEC ↔ h = 0x02000000#32 :=
  ⟨fun hs => by simpa using selectRow_cases hs, by rintro rfl; decide⟩

theorem selectRow_eq_reset_iff (h : Word) : selectRow h = some .RESET ↔ h = 0x03000000#32 :=
  ⟨fun hs => by simpa using selectRow_cases hs, by rintro rfl; decide⟩

theorem selectRow_eq_destroy_iff (h : Word) : selectRow h = some .DESTROY ↔ h = 0x04000000#32 :=
  ⟨fun hs => by simpa using selectRow_cases hs, by rintro rfl; decide⟩

/-- A row covers only headers with its own opcode byte (R46, R54). -/
theorem code_eq_opcField_of_covers {r : OpRow} (hr : r ∈ opcodeMap) {h : Word} (hc : h &&& r.mask = r.pat) :
    r.op.code = opcField h := by
  simp only [opcodeMap, List.mem_cons, List.not_mem_nil, or_false] at hr
  obtain rfl | hr := hr
  · exact ((mask_opcode_iff h).1 hc).symm
  · obtain rfl | rfl | rfl := hr <;> obtain rfl := (mask_all h).symm.trans hc <;> decide

/-- The rows are disjoint: their opcode bytes differ (R54). -/
theorem countP_covers_le_one (h : Word) : opcodeMap.countP (fun r => h &&& r.mask == r.pat) ≤ 1 := by
  have hcodes : (opcodeMap.map (fun r => r.op.code)).Nodup := by decide
  calc opcodeMap.countP (fun r => h &&& r.mask == r.pat)
      ≤ opcodeMap.countP (fun r => r.op.code == opcField h) :=
        List.countP_mono_left fun r hr hc => by
          simpa using code_eq_opcField_of_covers hr (by simpa using hc)
    _ = (opcodeMap.map (fun r => r.op.code)).count (opcField h) := by rw [List.count, List.countP_map]; rfl
    _ ≤ 1 := List.nodup_iff_count_le_one.1 hcodes _

/-- Settles O3: only BUILD's mask leaves bits out, and the rows differ in their opcode bytes. -/
theorem headerSelectsTheOneMatchingRow : Obligations.HeaderSelectsTheOneMatchingRow := by
  intro h
  have hmask : h &&& 0xFFFFFFFF = h := mask_all h
  rw [hmask]
  refine ⟨(selectRow_eq_build_iff h).trans (mask_opcode_iff h).symm, selectRow_eq_exec_iff h, selectRow_eq_reset_iff h,
    selectRow_eq_destroy_iff h, countP_covers_le_one h, fun payload rest hp hm => ?_, ?_, ?_, ?_⟩
  · have hd := decode_build (ns := nsField h) hp (kField h) rest
    rwa [← eq_headerWord_of_opcField ((mask_opcode_iff h).1 hm)] at hd
  · rintro re im rest rfl; exact decode_exec re im rest
  · rintro rest rfl; exact decode_reset rest
  · rintro rest rfl; exact decode_destroy rest

end Sys2Proof
end

