-- ==== Sys2Proof/Proofs/Frames.lean ====
section
/-!
PROOFS. Proofs/Frames.lean: how many words a frame takes (R45), the illegal headers (R55, R110), and what a step makes
of the frame at the head of the stream and answers to it (R51, R57, R105).
-/

namespace Sys2Proof

/-! ### The frame length (R45) -/

/-- The decoder waits exactly while the frame its header announces is not complete (R45, R57). -/
theorem decode_eq_incomplete_iff (h : Word) (tl : List Word) :
    decode (h :: tl) = .incomplete ↔ tl.length + 1 < frameLength h := by
  rw [decode_cons, frameLength]
  cases selectRow h with
  | none => simp
  | some op => simp; omega

/-- What the decoder consumes is the frame its header announces (R45, R57). -/
theorem rest_eq_drop_of_decode_frame {h : Word} {tl rest : List Word} {i : Instr}
    (hd : decode (h :: tl) = .frame i rest) : rest = tl.drop (frameLength h - 1) := by
  rw [decode_cons] at hd
  rw [frameLength]
  cases hs : selectRow h with
  | none => simp [hs] at hd
  | some op =>
    simp only [hs] at hd ⊢
    split_ifs at hd
    rw [← (Decoded.frame.inj hd).2, Nat.add_sub_cancel_left]

/-- An illegal header is a frame of its own, and no row matches it (R55). -/
theorem decode_eq_illegal_iff {h w : Word} {tl rest : List Word} :
    decode (h :: tl) = .illegal w rest ↔ selectRow h = none ∧ h = w ∧ tl = rest := by
  rw [decode_cons]
  cases selectRow h with
  | none => simp
  | some op => simp only; split_ifs <;> simp

theorem frameLength_of_selectRow_none {h : Word} (hs : selectRow h = none) : frameLength h = 1 := by
  rw [frameLength, hs]

/-! ### The illegal headers (R55) -/

/-- A header is illegal when it is none of the commands' headers (R55). -/
theorem selectRow_eq_none_iff (h : Word) : selectRow h = none ↔
    opcField h ≠ 0x01#8 ∧ h ≠ 0x02000000#32 ∧ h ≠ 0x03000000#32 ∧ h ≠ 0x04000000#32 := by
  rw [selectRow_eq]
  split_ifs <;> simp [*]

/-- A header is its opcode byte, then the 24 bits below. -/
theorem opcField_append_low (h : Word) : opcField h ++ h.extractLsb' 0 24 = h := by
  rw [opcField, BitVec.extractLsb'_append_extractLsb'_eq_extractLsb' (by omega)]
  exact BitVec.extractLsb'_eq_self

/-- A header equals an opcode byte above 24 zero bits exactly when its two parts do. -/
theorem eq_append_zero_iff (h : Word) (opc : BitVec 8) :
    h = opc ++ 0#24 ↔ opcField h = opc ∧ h.extractLsb' 0 24 = 0#24 := by
  constructor
  · rintro rfl
    exact ⟨BitVec.extractLsb'_append_eq_left, BitVec.extractLsb'_append_eq_right⟩
  · rintro ⟨rfl, hlow⟩
    rw [← hlow, opcField_append_low]

/-- The illegal headers by their opcode byte and the 24 bits below it (R55). -/
theorem selectRow_eq_none_iff_opcode (h : Word) : selectRow h = none ↔
    opcField h = 0x00#8 ∨ 0x05 ≤ (opcField h).toNat ∨
      (0x02 ≤ (opcField h).toNat ∧ (opcField h).toNat ≤ 0x04 ∧ h.extractLsb' 0 24 ≠ 0#24) := by
  have h2 : h = 0x02000000#32 ↔ _ := eq_append_zero_iff h 0x02#8
  have h3 : h = 0x03000000#32 ↔ _ := eq_append_zero_iff h 0x03#8
  have h4 : h = 0x04000000#32 ↔ _ := eq_append_zero_iff h 0x04#8
  rw [selectRow_eq_none_iff, ne_eq, ne_eq, ne_eq, ne_eq, h2, h3, h4]
  simp only [← BitVec.toNat_inj (y := (_ : BitVec 8)), BitVec.toNat_ofNat]
  by_cases hlow : h.extractLsb' 0 24 = 0#24
  · simp [hlow]; omega
  · simp [hlow]; omega

end Sys2Proof

namespace Sys2Proof.Machine

/-! ### Steps -/

/-- What an illegal header does, written out (R110). -/
theorem step_illegal_header {s : State} {h : Word} {rest : List Word} (hr : s.rst = false) (hst : s.stalled = false)
    (hcmd : s.cmd = h :: rest) (hs : selectRow h = none) :
    step s = .next { s with cmd := rest, rsp := s.rsp ++ [h.extractLsb' 24 8 ++ 0x40#8 ++ 0x0000#16] } := by
  have hd : decode s.cmd = .illegal h rest := by rw [hcmd]; exact decode_eq_illegal_iff.2 ⟨hs, rfl, rfl⟩
  exact step_illegal hr hst hd

/-- Settles O5: no row matches the header, so its step is that of an illegal header. -/
theorem illegalHeaderChangesNothingElse : Obligations.IllegalHeaderChangesNothingElse :=
  ⟨selectRow_eq_none_iff_opcode, by decide, by decide, fun _ _ _ => step_illegal_header⟩

/-- Settles O8: a step is stalled, or goes by what the decoder finds. -/
theorem stepRunsTheDecodedCommand : Obligations.StepRunsTheDecodedCommand := by
  intro s hr
  refine ⟨fun hfull => step_stalled hr (by simpa [State.stalled] using hfull), fun hroom => ?_⟩
  have hst : s.stalled = false := (State.stalled_eq_false_iff s).2 hroom
  exact ⟨fun i rest hd => step_frame hr hst hd, fun h rest hd => step_illegal hr hst hd,
    fun hd => step_incomplete hr hd⟩

/-- A BUILD with more sections than the block has room for answers an error (R106). -/
theorem execBuild_oversize {ns : BitVec 8} {payload : List Word} (hp : payload.length = 5 * ns.toNat) {s : State}
    (hns : s.cfg.NS_MAX < ns.toNat) (k : BitVec 16) :
    ∃ e : Status, e ≠ .OK ∧ execBuild ns k payload s = .next (raiseError Op.BUILD.code e s) := by
  rw [execBuild_eq hp]
  cases hc : buildCheck s.cfg ns k s.LIFE with
  | none =>
    obtain ⟨-, -, -, hfit, -⟩ := (buildCheck_none_iff _ _ _ _).1 hc
    omega
  | some e => exact ⟨e, buildCheck_ne_OK hc, rfl⟩

/-- Settles O4: the frame length decides whether the decoder waits and what it consumes; of BUILD's checks the one on
the number of sections fails if none before it does. -/
theorem frameLengthIsFixedByTheHeader : Obligations.FrameLengthIsFixedByTheHeader := by
  refine ⟨fun h tl => ⟨?_, (decode_eq_incomplete_iff h tl).2, fun hlen => ?_⟩,
    fun s h payload rest hr hst hcmd hm hp hns => ?_⟩
  · rw [frameLength_eq]
    simp only [← mask_opcode_iff]
    rfl
  · cases hd : decode (h :: tl) with
    | incomplete => exact absurd ((decode_eq_incomplete_iff h tl).1 hd) (by omega)
    | frame i rest => exact .inr ⟨i, by rw [rest_eq_drop_of_decode_frame hd]⟩
    | illegal w rest =>
      obtain ⟨hs, rfl, rfl⟩ := decode_eq_illegal_iff.1 hd
      exact .inl (by rw [frameLength_of_selectRow_none hs]; rfl)
  · have hh := eq_headerWord_of_opcField ((mask_opcode_iff h).1 hm)
    have hd : decode s.cmd = .frame (.build (nsField h) (kField h) payload) rest := by
      rw [hcmd, hh]
      simpa using decode_build (ns := nsField h) hp (kField h) rest
    obtain ⟨e, he, hexec⟩ := execBuild_oversize (s := { s with cmd := rest }) (ns := nsField h) hp hns (kField h)
    exact ⟨e, he, (step_frame hr hst hd).trans hexec⟩

/-! ### One response per header (R51) -/

theorem Status.code_eq_zero_iff (st : Status) : st.code = 0x00#8 ↔ st = .OK := by cases st <;> decide

/-- A decoded command is of the row its header selects (R54, R57). -/
theorem selectRow_of_decode_frame {h : Word} {tl rest : List Word} {i : Instr}
    (hd : decode (h :: tl) = .frame i rest) : selectRow h = some (opOf i) := by
  rw [decode_cons] at hd
  cases hs : selectRow h with
  | none => simp [hs] at hd
  | some op =>
    simp only [hs] at hd
    split_ifs at hd
    rw [← (Decoded.frame.inj hd).1]
    cases op <;> rfl

/-- The opcode byte of a selected row is the header's (R46, R54). -/
theorem code_eq_opcField_of_selectRow {h : Word} {op : Op} (hs : selectRow h = some op) : op.code = opcField h := by
  obtain ⟨rfl, hopc⟩ | ⟨rfl, rfl⟩ | ⟨rfl, rfl⟩ | ⟨rfl, rfl⟩ := selectRow_cases hs
  · exact hopc.symm
  all_goals rfl

/-- The response a command adds: payload words only for a successful EXEC, `2 * K` of them (R51, R52). -/
theorem exec_responds {i : Instr} {s t : State} (h : exec i s = .next t) :
    ∃ st payload, t.rsp = s.rsp ++ (Response.mk (opOf i).code st payload).words ∧
      ((opOf i = .EXEC ∧ st = .OK ∧ s.LIFE.live = true ∧ payload.length = 2 * s.K.toNat) ∨
       ((opOf i = .EXEC → st ≠ .OK) ∧ payload = [])) := by
  cases i with
  | build ns k p =>
    obtain ⟨-, ⟨e, -, rfl⟩ | ⟨-, rfl⟩⟩ := execBuild_cases h
    · exact ⟨e, [], rfl, .inr ⟨nofun, rfl⟩⟩
    · exact ⟨.OK, [], rfl, .inr ⟨nofun, rfl⟩⟩
  | exec re im =>
    obtain ⟨e, he, rfl⟩ | ⟨hl, -, -, rfl⟩ := execExec_cases h
    · refine ⟨e, [], rfl, .inr ⟨fun _ => ?_, rfl⟩⟩
      obtain rfl | rfl := execCheck_some he <;> decide
    · exact ⟨.OK, _, rfl, .inl ⟨rfl, rfl, hl, execPayload_length _ _⟩⟩
  | reset =>
    obtain ⟨-, rfl⟩ | ⟨-, -, rfl⟩ := execReset_cases h
    · exact ⟨.USAGE_ERR_HANDLE, [], rfl, .inr ⟨nofun, rfl⟩⟩
    · exact ⟨.OK, [], rfl, .inr ⟨nofun, rfl⟩⟩
  | destroy =>
    obtain ⟨-, rfl⟩ | ⟨-, rfl⟩ := execDestroy_cases h
    · exact ⟨.USAGE_ERR_HANDLE, [], rfl, .inr ⟨nofun, rfl⟩⟩
    · exact ⟨.OK, [], rfl, .inr ⟨nofun, rfl⟩⟩

/-- The response frame a step adds for header `h`, as the host reads it (R51). -/
theorem step_responds {s t : State} {h : Word} {tl : List Word} (hr : s.rst = false) (hst : s.stalled = false)
    (hcmd : s.cmd = h :: tl) (hd : decode s.cmd ≠ .incomplete) (hstep : step s = .next t) :
    ∃ st payload, t.cmd = tl.drop (frameLength h - 1) ∧ t.rsp = s.rsp ++ (Response.mk (opcField h) st payload).words ∧
      ((h = 0x02000000#32 ∧ st = .OK ∧ s.LIFE.live = true ∧ payload.length = 2 * s.K.toNat) ∨
       ((h = 0x02000000#32 → st ≠ .OK) ∧ payload = [])) := by
  cases hdec : decode s.cmd with
  | incomplete => exact absurd hdec hd
  | illegal w rest =>
    obtain rfl := Host.Outcome.next.inj ((step_illegal hr hst hdec).symm.trans hstep)
    rw [hcmd] at hdec
    obtain ⟨hs, rfl, rfl⟩ := decode_eq_illegal_iff.1 hdec
    exact ⟨.ILLEGAL_CMD, [], by rw [frameLength_of_selectRow_none hs]; rfl, rfl, .inr ⟨nofun, rfl⟩⟩
  | frame i rest =>
    have hexec := (step_frame hr hst hdec).symm.trans hstep
    obtain ⟨st, payload, hrsp, hkind⟩ := exec_responds hexec
    rw [hcmd] at hdec
    have hrow := selectRow_of_decode_frame hdec
    have hexec_iff : opOf i = .EXEC ↔ h = 0x02000000#32 := by rw [← selectRow_eq_exec_iff, hrow, Option.some.injEq]
    rw [code_eq_opcField_of_selectRow hrow] at hrsp
    rw [hexec_iff] at hkind
    exact ⟨st, payload, (exec_keeps_streams hexec).1.trans (rest_eq_drop_of_decode_frame hdec), hrsp, hkind⟩

/-- Settles O47: the payload of the one response fits its `COUNT`, so the host reads it back (R2, R51). -/
theorem oneResponsePerHeader : Obligations.OneResponsePerHeader := by
  intro s t h tl hi hr hst hcmd hd hstep
  obtain ⟨st, payload, htcmd, hrsp, hkind⟩ := step_responds hr hst hcmd hd hstep
  have hlen : payload.length < 2 ^ 16 := by
    obtain ⟨-, -, hl, hk⟩ | ⟨-, rfl⟩ := hkind
    · have hmax := (hi.live hl).factor_fits.trans (K_MAX_le s.cfg)
      omega
    · decide
  refine ⟨⟨opcField h, st.code, payload⟩, rfl, ⟨st, rfl⟩, htcmd, hrsp, fun rest => ?_, fun hh hok => ?_, fun hne => ?_⟩
  · rw [hrsp, List.drop_left]
    exact takeResponse_words _ _ _ rest hlen
  · obtain ⟨-, -, -, hk⟩ | ⟨herr, -⟩ := hkind
    · exact hk
    · exact absurd ((Status.code_eq_zero_iff st).1 hok) (herr hh)
  · obtain ⟨hh, rfl, -, -⟩ | ⟨-, hp⟩ := hkind
    · exact absurd hne (by simp [hh, Status.code])
    · exact hp

end Sys2Proof.Machine
end

