-- ==== Sys2Proof/Proofs/Containers.lean ====
section
/-!
PROOFS. Proofs/Containers.lean: the containers of `W`-bit words on the channels (R53, R61).
-/

namespace Sys2Proof.Machine

/-- A container is made of bits `W-1:0` alone. -/
theorem container_congr {c : Config} {v w : Word} (h : v.setWidth c.W = w.setWidth c.W) :
    container c v = container c w :=
  congrArg (BitVec.signExtend 32) h

theorem coefficientOperands_congr {c : Config} {p p' : List Word}
    (h : p.map (fun w : Word => w.setWidth c.W) = p'.map (fun w : Word => w.setWidth c.W)) :
    coefficientOperands c p = coefficientOperands c p' := by
  have hsplit : ∀ q : List Word, coefficientOperands c q =
      (q.map (fun w : Word => w.setWidth c.W)).map (BitVec.signExtend 32) := fun _ => List.map_map.symm
  rw [hsplit, h, ← hsplit]

/-- The bits of a container from `W-1` up are all its sign bit. -/
theorem IsWord.getLsbD_eq_sign {c : Config} {w : Word} (h : IsWord c w) {j : Nat} (hj : c.W ≤ j) (hj' : j < 32) :
    w.getLsbD j = w.getLsbD (c.W - 1) := by
  obtain ⟨hW, -⟩ := c.valid
  have hhigh := congrArg (fun v => v.getLsbD j) h
  simp only [container, BitVec.getLsbD_signExtend, BitVec.msb_eq_getLsbD_last, BitVec.getLsbD_setWidth] at hhigh
  rw [if_neg (by omega)] at hhigh
  simpa [hj', show c.W - 1 < c.W by omega] using hhigh.symm

theorem container_eq_self_of_W {c : Config} (h : c.W = 32) (w : Word) : container c w = w := by
  rw [container, ← BitVec.toInt_inj]
  have hwidth : (w.setWidth c.W).toInt = w.toInt := by rw [h, BitVec.setWidth_eq]
  rw [BitVec.toInt_signExtend_of_le h.le, hwidth]

/-- Every output word of an EXEC is a product of the scalar unit, so a word (R71, R113). -/
theorem isWord_of_mem_execPayload {x : Cplx} {s : State} {w : Word} (h : w ∈ execPayload x s) : IsWord s.cfg w := by
  simp only [execPayload, outWords, outputGain, List.mem_flatMap, List.mem_map] at h
  obtain ⟨-, ⟨z, -, rfl⟩, hw⟩ := h
  obtain rfl | rfl : w = qmul s.cfg s.G z.re ∨ w = qmul s.cfg s.G z.im := by simpa [cscale] using hw
  all_goals exact isWord_qmul _ _ _

/-- Settles O9: EXEC and BUILD read their payload words through `container`, and an EXEC answers products. -/
theorem containersIgnoreUpperBits : Obligations.ContainersIgnoreUpperBits := by
  intro s _
  refine ⟨fun re im re' im' hre him => ?_, fun ns k p p' hp => ?_,
    fun re im w hw j hj hj' => (isWord_of_mem_execPayload hw).getLsbD_eq_sign hj hj', container_eq_self_of_W⟩
  · have hx : sampleOperand s.cfg re im = sampleOperand s.cfg re' im' := by
      rw [sampleOperand, container_congr hre, container_congr him, sampleOperand]
    show execExec re im s = execExec re' im' s
    rw [execExec, hx, execExec]
  · have hlen : p.length = p'.length := by simpa using congrArg List.length hp
    have hstate : buildState ns k p s = buildState ns k p' s := by
      rw [buildState, coefficientOperands_congr hp, buildState]
    show execBuild ns k p s = execBuild ns k p' s
    rw [execBuild, hlen, hstate, execBuild]

end Sys2Proof.Machine
end

