-- ==== Sys2Proof/Proofs/Listing.lean ====
section
/-!
PROOFS. Proofs/Listing.lean: the frames the lines of a listing assemble to, and what the decoder makes of them
(R58, R59).
-/

namespace Sys2Proof.Machine

/-- What a BUILD line assembles to (R58). -/
theorem assembleLine_build_iff (c : Config) (k : Nat) (ns : Option Nat) (groups : List BracketGroup) (ws : List Word) :
    assembleLine c (.build k ns groups) = some ws ↔
      k < 2 ^ 16 ∧ ns.getD groups.length < 2 ^ 8 ∧
      ∃ payload : List Word,
        payload.map some = (groups.flatMap BracketGroup.literals).map (assembleLiteral c) ∧
        ws = headerWord Op.BUILD.code (BitVec.ofNat 8 (ns.getD groups.length)) (BitVec.ofNat 16 k) :: payload := by
  rw [assembleLine]
  split_ifs with hfit
  · simp only [Option.map_eq_some_iff, assembleLiterals_eq_some_iff, hfit, true_and, eq_comm (a := ws)]
  · simp only [false_iff]
    exact fun ⟨hk, hns, _⟩ => hfit ⟨hk, hns⟩

/-- What an EXEC line assembles to (R58). -/
theorem assembleLine_exec_iff (c : Config) (a b : Literal) (ws : List Word) :
    assembleLine c (.exec a b) = some ws ↔
      ∃ re im, assembleLiteral c a = some re ∧ assembleLiteral c b = some im ∧ ws = [0x02000000#32, re, im] := by
  rw [assembleLine, Option.map_eq_some_iff]
  constructor
  · rintro ⟨operands, hops, rfl⟩
    simp only [assembleLiterals_eq_some_iff, List.map_cons, List.map_nil, List.map_eq_cons_iff,
      List.map_eq_nil_iff] at hops
    obtain ⟨re, _, rfl, hre, im, _, rfl, him, rfl⟩ := hops
    exact ⟨re, im, hre.symm, him.symm, rfl⟩
  · rintro ⟨re, im, ha, hb, rfl⟩
    exact ⟨[re, im], assembleLiterals_eq_some_iff.2 (by simp [ha, hb]), rfl⟩

/-- A BUILD line is its header and five words a group; the decoder goes by the header's `NS` (R45, R58). -/
theorem decode_buildLine {c : Config} {k : Nat} {ns : Option Nat} {groups : List BracketGroup} {h : Word}
    {payload : List Word} (ha : assembleLine c (.build k ns groups) = some (h :: payload)) :
    payload.length = 5 * groups.length ∧
      decode (h :: payload) =
        if payload.length < 5 * ns.getD groups.length then .incomplete
        else .frame (.build (BitVec.ofNat 8 (ns.getD groups.length)) (BitVec.ofNat 16 k)
          (payload.take (5 * ns.getD groups.length))) (payload.drop (5 * ns.getD groups.length)) := by
  obtain ⟨-, hns, _, hwords, hws⟩ := (assembleLine_build_iff c k ns groups _).1 ha
  obtain ⟨rfl, rfl⟩ := List.cons.inj hws
  have hlen := congrArg List.length hwords
  rw [List.length_map, List.length_map, length_flatMap_literals] at hlen
  refine ⟨hlen, ?_⟩
  rw [decode_buildHeader, BitVec.toNat_ofNat, Nat.mod_eq_of_lt hns]

/-- Settles O59: a BUILD line decodes by how its groups compare with the header's `NS`. -/
theorem listingLinesAreFrames : Obligations.ListingLinesAreFrames := by
  intro c
  refine ⟨fun _ => rfl, fun _ => rfl, assembleLine_build_iff c, fun k ns groups h payload ha => ?_,
    assembleLine_exec_iff c, fun re im => decode_exec re im [], ⟨rfl, decode_reset []⟩, ⟨rfl, decode_destroy []⟩,
    fun _ => rfl⟩
  obtain ⟨hlen, hd⟩ := decode_buildLine ha
  refine ⟨fun hns => ?_, fun hns => ?_, ?_⟩
  · rw [hd, hns, ← hlen, if_neg (lt_irrefl _), List.take_length, List.drop_length]
  · rw [hd, if_pos (by omega)]
  · rintro n rfl hn
    rw [Option.getD_some] at hd
    rw [hd, if_neg (by omega)]

end Sys2Proof.Machine
end

