-- ==== Sys2Proof/Proofs/SaturatingArithmetic.lean ====
section
/-!
PROOFS. Proofs/SaturatingArithmetic.lean: the clamp, and the addition and subtraction that take it once (R67 to R69).
-/

namespace Sys2Proof.Machine

/-! ### The clamp (R67) -/

theorem clamp_eq_max_min (c : Config) (n : Int) : clamp c n = max (MINV c) (min (MAXV c) n) := by
  have := MAXV_pos c
  have := MINV_neg c
  unfold clamp
  split_ifs <;> omega

theorem sat_of_mem {c : Config} {m n : Int} (h : m = n) (h1 : MINV c ≤ n) (h2 : n ≤ MAXV c) : sat c m = wordOf n := by
  rw [h, sat, clamp_of_mem h1 h2]

theorem sat_of_MAXV_le {c : Config} {n : Int} (h : MAXV c ≤ n) : sat c n = wordOf (MAXV c) := by
  have := MINV_neg c
  have := MAXV_pos c
  rw [sat, clamp_eq_max_min, min_eq_left h, max_eq_right (by omega)]

theorem sat_of_le_MINV {c : Config} {n : Int} (h : n ≤ MINV c) : sat c n = wordOf (MINV c) := by
  rw [sat, clamp_eq_max_min, max_eq_left (le_trans (min_le_right _ _) h)]

/-- Settles O10: a clamped integer is the value of its word. -/
theorem satClampsToTheWordRange : Obligations.SatClampsToTheWordRange := by
  intro c
  have hval : ∀ n, val c (sat c n) = max (MINV c) (min (MAXV c) n) := fun n =>
    (val_sat c n).trans (clamp_eq_max_min c n)
  have := MINV_neg c
  have := MAXV_pos c
  refine ⟨fun n => val_sat c n, fun m n h => ?_, fun n => sat_val (isWord_sat c n), ?_, ?_, ?_, ?_, by decide⟩
  · rw [val_sat, val_sat]
    exact clamp_mono c h
  all_goals rw [hval]; omega

/-! ### The values of the words of the corner cases -/

theorem seven_le_MAXV (c : Config) : 7 ≤ MAXV c := by
  have := two_pow_ge c
  unfold MAXV
  omega

@[simp] theorem val_wordOf_MAXV (c : Config) : val c (wordOf (MAXV c)) = MAXV c :=
  val_wordOf c ((MINV_neg c).trans (MAXV_pos c)).le le_rfl

@[simp] theorem val_wordOf_MINV (c : Config) : val c (wordOf (MINV c)) = MINV c :=
  val_wordOf c le_rfl ((MINV_neg c).trans (MAXV_pos c)).le

@[simp] theorem val_wordOf_one (c : Config) : val c (wordOf 1) = 1 := by
  have := MINV_neg c
  have := MAXV_pos c
  exact val_wordOf c (by omega) (by omega)

@[simp] theorem val_wordOf_neg_one (c : Config) : val c (wordOf (-1)) = -1 := by
  have := MINV_neg c
  have := MAXV_pos c
  exact val_wordOf c (by omega) (by omega)

@[simp] theorem val_wordOf_zero (c : Config) : val c (wordOf 0) = 0 := val_zero c

/-! ### Addition and subtraction (R68, R69) -/

theorem val_qadd (c : Config) (a b : Word) :
    val c (qadd c a b) = max (MINV c) (min (MAXV c) (val c a + val c b)) :=
  (val_sat c _).trans (clamp_eq_max_min c _)

theorem val_qsub (c : Config) (a b : Word) :
    val c (qsub c a b) = max (MINV c) (min (MAXV c) (val c a - val c b)) :=
  (val_sat c _).trans (clamp_eq_max_min c _)

/-- Settles O11: each corner case is a sum past a bound or in range. -/
theorem qaddIsTheExactSumClamped : Obligations.QaddIsTheExactSumClamped := by
  intro c
  have hpos := seven_le_MAXV c
  have hmin := MAXV_eq c
  have hmaxv := val_wordOf_MAXV c
  have hminv := val_wordOf_MINV c
  have hone := val_wordOf_one c
  have hnegOne := val_wordOf_neg_one c
  refine ⟨val_qadd c, fun a => qadd_zero_right, sat_of_MAXV_le ?_, sat_of_le_MINV ?_, sat_of_mem ?_ ?_ ?_,
    sat_of_le_MINV ?_, sat_of_MAXV_le ?_, sat_of_mem ?_ ?_ ?_, by decide, by decide⟩
  all_goals omega

/-- Settles O12: `MINV` has no negation in range, so adding the clamped one falls one short of the difference. -/
theorem qsubIsTheExactDifferenceClamped : Obligations.QsubIsTheExactDifferenceClamped := by
  intro c
  have hpos := seven_le_MAXV c
  have hmin := MAXV_eq c
  have hmaxv := val_wordOf_MAXV c
  have hminv := val_wordOf_MINV c
  have hone := val_wordOf_one c
  have hnegOne := val_wordOf_neg_one c
  have hzero := val_wordOf_zero c
  have hneg : sat c (-MINV c) = wordOf (MAXV c) := sat_of_MAXV_le (by omega)
  have hclamped : val c (sat c (-MINV c)) = MAXV c := by rw [hneg, hmaxv]
  refine ⟨val_qsub c, qsub_self c, sat_of_MAXV_le ?_, sat_of_mem ?_ ?_ ?_, sat_of_mem ?_ ?_ ?_, sat_of_le_MINV ?_,
    sat_of_MAXV_le ?_, sat_of_MAXV_le ?_, sat_of_le_MINV ?_, by decide, by decide⟩
  all_goals omega

end Sys2Proof.Machine
end

