-- ==== Sys2Proof/Proofs/ScalarProducts.lean ====
section
/-!
PROOFS. Proofs/ScalarProducts.lean: the rounding of a product, the operations that multiply, and the laws of the
scalar unit (R70 to R74).
-/

namespace Sys2Proof.Machine

/-! ### The rounding (R70) -/

theorem two_mul_HALF (c : Config) : 2 * HALF c = 2 ^ c.F := by
  obtain ⟨-, -, hF, -⟩ := c.valid
  unfold HALF
  rw [← Int.pow_succ', Nat.sub_add_cancel hF]

theorem HALF_pos (c : Config) : 0 < HALF c := by unfold HALF; positivity

theorem rnd_of_HALF_UP {c : Config} (h : c.RND = .HALF_UP) (p : Int) : rnd c p = (p + HALF c) / 2 ^ c.F := by
  rw [rnd_eq, h]

theorem rnd_of_TRUNC {c : Config} (h : c.RND = .TRUNC) (p : Int) : rnd c p = p / 2 ^ c.F := by rw [rnd_eq, h]

/-- The quotient rounded down is the one integer between these bounds. -/
theorem mul_ediv_le_and_lt {d : Int} (hd : 0 < d) (n : Int) : d * (n / d) ≤ n ∧ n < d * (n / d + 1) :=
  ⟨Int.mul_ediv_self_le hd.ne', by rw [mul_add_one]; exact Int.lt_mul_ediv_self_add hd⟩

theorem abs_val_le (c : Config) (w : Word) : |val c w| ≤ 2 ^ (c.W - 1) :=
  abs_le.2 ⟨MINV_le_val c w, (val_le_MAXV c w).trans (Int.sub_le_self _ (by decide))⟩

theorem abs_val_mul_val_le (c : Config) (a b : Word) : |val c a * val c b| ≤ 2 ^ (2 * c.W - 2) := by
  calc |val c a * val c b|
      = |val c a| * |val c b| := abs_mul _ _
    _ ≤ 2 ^ (c.W - 1) * 2 ^ (c.W - 1) :=
        mul_le_mul (abs_val_le c a) (abs_val_le c b) (abs_nonneg _) (by positivity)
    _ = 2 ^ (2 * c.W - 2) := by rw [← pow_add]; congr 1; omega

/-- Settles O13: both modes are a quotient rounded down, of which the bounds and the values at half a unit follow. -/
theorem roundingIsTheNamedRule : Obligations.RoundingIsTheNamedRule := by
  intro c
  have hpow : (0:Int) < 2 ^ c.F := by positivity
  have hhalf := two_mul_HALF c
  have hpos := HALF_pos c
  refine ⟨fun h p => ?_, fun h p => ?_, fun _ _ => rnd_mono c, rnd_mul_pow c, rnd_zero c, fun h => ⟨?_, ?_⟩,
    fun h => ?_, abs_val_mul_val_le c⟩
  · rw [rnd_of_HALF_UP h]
    exact mul_ediv_le_and_lt hpow _
  · rw [rnd_of_TRUNC h]
    exact mul_ediv_le_and_lt hpow _
  · rw [rnd_of_HALF_UP h, ← two_mul, hhalf, Int.ediv_self hpow.ne']
  · rw [rnd_of_HALF_UP h, neg_add_cancel, Int.zero_ediv]
  · rw [rnd_of_TRUNC h, Int.neg_one_ediv, Int.sign_eq_one_of_pos hpow]

/-! ### Multiplication (R71, R82) -/

theorem val_qmul (c : Config) (a b : Word) :
    val c (qmul c a b) = max (MINV c) (min (MAXV c) (rnd c (val c a * val c b))) :=
  (val_sat c _).trans (clamp_eq_max_min c _)

/-- The word of an integer multiplies exactly, in both rounding modes (R82). -/
theorem qmul_of_val_eq_mul_pow {c : Config} {w : Word} {k : Int} (h : val c w = k * 2 ^ c.F) (x : Word) :
    qmul c w x = sat c (k * val c x) := by
  rw [qmul, h, mul_right_comm, rnd_mul_pow]

theorem ONE_pos (c : Config) : 0 < ONE c := by unfold ONE; positivity

@[simp] theorem val_wordOf_neg_ONE (c : Config) : val c (wordOf (-ONE c)) = -ONE c := by
  have hone : ONE c ≤ MAXV c := two_pow_F_le c
  have hpos := ONE_pos c
  have := MAXV_eq c
  exact val_wordOf c (by omega) (by omega)

theorem qmul_neg_ONE (c : Config) (x : Word) : qmul c (wordOf (-ONE c)) x = sat c (-val c x) := by
  rw [qmul_of_val_eq_mul_pow (k := -1) (by rw [val_wordOf_neg_ONE, ONE, neg_one_mul]), neg_one_mul]

theorem qmul_neg_ONE_MINV (c : Config) : qmul c (wordOf (-ONE c)) (wordOf (MINV c)) = wordOf (MAXV c) := by
  have := MAXV_eq c
  rw [qmul_neg_ONE, val_wordOf_MINV, sat_of_MAXV_le (by omega)]

/-- Settles O14: 1.0 and -1.0 multiply exactly; the table is evaluated. -/
theorem qmulRoundsThenClamps : Obligations.QmulRoundsThenClamps :=
  ⟨val_qmul, qmul_zero_left, fun _ _ => qmul_ONE, qmul_neg_ONE, qmul_neg_ONE_MINV, by decide⟩

/-! ### Multiply-accumulate and multiply-subtract (R72, R73) -/

theorem qmac_zero_product {c : Config} {acc : Word} (h : IsWord c acc) (b : Word) : qmac c acc 0#32 b = acc := by
  rw [qmac, qmul_zero_left, qadd_zero_right h]

theorem qmsu_zero_product {c : Config} {acc : Word} (h : IsWord c acc) (b : Word) : qmsu c acc 0#32 b = acc := by
  rw [qmsu, qmul_zero_left, qsub_zero_right h]

theorem qmac_zero_acc (c : Config) (a b : Word) : qmac c 0#32 a b = qmul c a b := qadd_zero_left (isWord_qmul c a b)

theorem qmsu_zero_acc_neg_ONE_MINV (c : Config) :
    qmsu c 0#32 (wordOf (-ONE c)) (wordOf (MINV c)) = wordOf (MINV c + 1) := by
  have := seven_le_MAXV c
  have := MAXV_eq c
  rw [qmsu, qmul_neg_ONE_MINV]
  exact sat_of_mem (by rw [val_zero, val_wordOf_MAXV]; omega) (by omega) (by omega)

theorem qmsu_zero_acc_ONE_MINV (c : Config) : qmsu c 0#32 (wordOf (ONE c)) (wordOf (MINV c)) = wordOf (MAXV c) := by
  have := seven_le_MAXV c
  have := MAXV_eq c
  rw [qmsu, qmul_ONE (isWord_wordOf c le_rfl (by omega))]
  exact sat_of_MAXV_le (by rw [val_zero, val_wordOf_MINV]; omega)

/-- Settles O15: the product is a word, so it enters the sum and the difference clamped. -/
theorem macAndMsuClampTwice : Obligations.MacAndMsuClampTwice := by
  refine ⟨fun c acc a b => ⟨?_, ?_⟩, fun c acc b h => ⟨qmac_zero_product h b, qmsu_zero_product h b⟩, qmac_zero_acc,
    fun c => ⟨qmsu_zero_acc_neg_ONE_MINV c, qmsu_zero_acc_ONE_MINV c⟩, by decide, by decide, by decide, by decide,
    by decide⟩
  · rw [qmac, val_qadd, val_qmul]
  · rw [qmsu, val_qsub, val_qmul]

/-! ### The laws (R74) -/

theorem isWord_qmac (c : Config) (acc a b : Word) : IsWord c (qmac c acc a b) := isWord_qadd c _ _
theorem isWord_qmsu (c : Config) (acc a b : Word) : IsWord c (qmsu c acc a b) := isWord_qsub c _ _

theorem val_qadd_mono {c : Config} {a a' b b' : Word} (ha : val c a ≤ val c a') (hb : val c b ≤ val c b') :
    val c (qadd c a b) ≤ val c (qadd c a' b') := by
  rw [qadd, qadd, val_sat, val_sat]
  exact clamp_mono c (add_le_add ha hb)

theorem val_qsub_mono_left {c : Config} {a a' : Word} (ha : val c a ≤ val c a') (b : Word) :
    val c (qsub c a b) ≤ val c (qsub c a' b) := by
  rw [qsub, qsub, val_sat, val_sat]
  exact clamp_mono c (sub_le_sub_right ha _)

theorem val_qmul_mono_left {c : Config} {a a' b : Word} (ha : val c a ≤ val c a') (hb : 0 ≤ val c b) :
    val c (qmul c a b) ≤ val c (qmul c a' b) := by
  rw [qmul, qmul, val_sat, val_sat]
  exact clamp_mono c (rnd_mono c (mul_le_mul_of_nonneg_right ha hb))

theorem val_sat_of_mem {c : Config} {m n : Int} (h : m = n) (h1 : MINV c ≤ n) (h2 : n ≤ MAXV c) :
    val c (sat c m) = n := by
  rw [sat_of_mem h h1 h2, val_wordOf c h1 h2]

theorem wordOf_ne_wordOf {c : Config} {m n : Int} (hm : MINV c ≤ m ∧ m ≤ MAXV c) (hn : MINV c ≤ n ∧ n ≤ MAXV c)
    (h : m ≠ n) : wordOf m ≠ wordOf n := fun he =>
  h (by rw [← val_wordOf c hm.1 hm.2, he, val_wordOf c hn.1 hn.2])

/-- The sum past `MAXV` is clamped before the second addition takes one away (R74 (b)). -/
theorem qadd_not_assoc (c : Config) :
    qadd c (qadd c (wordOf (MAXV c)) (wordOf 1)) (wordOf (-1)) = wordOf (MAXV c - 1) ∧
      qadd c (wordOf (MAXV c)) (qadd c (wordOf 1) (wordOf (-1))) = wordOf (MAXV c) := by
  have := seven_le_MAXV c
  have := MAXV_eq c
  have hclamped : qadd c (wordOf (MAXV c)) (wordOf 1) = wordOf (MAXV c) := sat_of_MAXV_le (by simp)
  have hexact : qadd c (wordOf 1) (wordOf (-1)) = wordOf 0 := sat_of_mem (by simp) (by omega) (by omega)
  rw [hclamped, hexact]
  exact ⟨sat_of_mem (by rw [val_wordOf_MAXV, val_wordOf_neg_one, Int.sub_eq_add_neg]) (by omega) (by omega),
    sat_of_mem (by simp) (by omega) le_rfl⟩

/-- `(-1.0 * -1.0) * MINV` is `MINV`, but `-1.0 * MINV` is clamped, one short of the negation (R74 (b)). -/
theorem qmul_not_assoc (c : Config) : ∃ x y z, qmul c (qmul c x y) z ≠ qmul c x (qmul c y z) := by
  have := seven_le_MAXV c
  have := MAXV_eq c
  have hpos := ONE_pos c
  have hfits : ONE c ≤ MAXV c := two_pow_F_le c
  refine ⟨wordOf (-ONE c), wordOf (-ONE c), wordOf (MINV c), ?_⟩
  have hsquare : qmul c (wordOf (-ONE c)) (wordOf (-ONE c)) = wordOf (ONE c) := by
    rw [qmul_neg_ONE]
    exact sat_of_mem (by simp) (by omega) hfits
  have hleft : qmul c (wordOf (ONE c)) (wordOf (MINV c)) = wordOf (MINV c) :=
    qmul_ONE (isWord_wordOf c le_rfl (by omega))
  have hright : qmul c (wordOf (-ONE c)) (wordOf (MAXV c)) = wordOf (MINV c + 1) := by
    rw [qmul_neg_ONE, val_wordOf_MAXV]
    exact sat_of_mem (by omega) (by omega) (by omega)
  rw [hsquare, hleft, qmul_neg_ONE_MINV, hright]
  exact wordOf_ne_wordOf (c := c) (by omega) (by omega) (by omega)

/-- `-1.0 * (MINV + 1)` is `MAXV`, but the sum of the products starts from a clamped one (R74 (b)). -/
theorem qmul_not_distrib (c : Config) : ∃ x y z, qmul c x (qadd c y z) ≠ qadd c (qmul c x y) (qmul c x z) := by
  have := seven_le_MAXV c
  have := MAXV_eq c
  refine ⟨wordOf (-ONE c), wordOf (MINV c), wordOf 1, ?_⟩
  have hsum : qadd c (wordOf (MINV c)) (wordOf 1) = wordOf (MINV c + 1) :=
    sat_of_mem (by simp) (by omega) (by omega)
  have hleft : qmul c (wordOf (-ONE c)) (wordOf (MINV c + 1)) = wordOf (MAXV c) := by
    rw [qmul_neg_ONE, val_wordOf c (by omega) (by omega), sat_of_MAXV_le (by omega)]
  have hone : qmul c (wordOf (-ONE c)) (wordOf 1) = wordOf (-1) := by
    rw [qmul_neg_ONE]
    exact sat_of_mem (by simp) (by omega) (by omega)
  have hright : qadd c (wordOf (MAXV c)) (wordOf (-1)) = wordOf (MAXV c - 1) :=
    sat_of_mem (by rw [val_wordOf_MAXV, val_wordOf_neg_one, Int.sub_eq_add_neg]) (by omega) (by omega)
  rw [hsum, hleft, qmul_neg_ONE_MINV, hone, hright]
  exact wordOf_ne_wordOf (c := c) (by omega) (by omega) (by omega)

/-- Settles O16: the laws one by one. -/
theorem scalarLawsHold : Obligations.ScalarLawsHold := by
  intro c
  have hz : IsWord c 0#32 := isWord_zero c
  refine ⟨fun a b => ⟨qadd_comm c a b, qmul_comm c a b⟩, qadd_not_assoc c, qmul_not_assoc c, qmul_not_distrib c,
    fun a b h => ⟨qadd_zero_right h, qsub_zero_right h, qmul_ONE h, qmul_zero_left c a, qmac_zero_product h b⟩,
    fun a a' b b' ha hb => ⟨val_qadd_mono ha hb, val_qsub_mono_left ha b, val_qmul_mono_left ha⟩,
    fun a b d r hr => ⟨?_, MINV_le_val c r, val_le_MAXV c r⟩,
    fun a b => ⟨val_sat_of_mem rfl, val_sat_of_mem rfl, fun n h => val_sat_of_mem ?_⟩,
    qadd_zero_right hz, qsub_zero_right hz, qmul_zero_left c 0, qmac_zero_product hz 0, qmsu_zero_product hz 0⟩
  · simp only [List.mem_cons, List.not_mem_nil, or_false] at hr
    obtain rfl | rfl | rfl | rfl | rfl := hr
    · exact isWord_qadd c a b
    · exact isWord_qsub c a b
    · exact isWord_qmul c a b
    · exact isWord_qmac c d a b
    · exact isWord_qmsu c d a b
  · rw [h, rnd_mul_pow]

end Sys2Proof.Machine
end

