-- ==== Sys2Proof/Proofs/Conversions.lean ====
section
/-!
PROOFS. Proofs/Conversions.lean: the words of integers and rationals, and the BUILD frame of a host that follows the
boot rules (R79 to R82, R106, R152).
-/

namespace Sys2Proof.Machine

/-! ### Integers (R82) -/

theorem roundReal_eq_floor (c : Config) (r : Rat) : roundReal c r = ⌊r * 2 ^ c.F + 1 / 2⌋ := rfl

/-- An exactly representable number is not changed by the rounding (R80). -/
theorem roundReal_of_mul_pow_eq {c : Config} {r : Rat} {n : Int} (h : r * 2 ^ c.F = n) : roundReal c r = n := by
  rw [roundReal_eq_floor, h, Int.floor_eq_iff]
  constructor <;> linarith

theorem qFromInt_eq_wordOf (c : Config) (k : Int) : qFromInt c k = wordOf (k * 2 ^ c.F) := by
  rw [qFromInt, Int.shiftLeft_eq]

/-- Settles O17: the word of an integer is exact from either conversion, and multiplies exactly. -/
theorem integerWordMultipliesExactly : Obligations.IntegerWordMultipliesExactly := by
  refine ⟨fun c k h1 h2 => ?_, buildState_G⟩
  have hval : val c (qFromInt c k) = k * 2 ^ c.F := by rw [qFromInt_eq_wordOf, val_wordOf c h1 h2]
  refine ⟨hval, ?_, qmul_of_val_eq_mul_pow hval⟩
  have hround : roundReal c k = k * 2 ^ c.F := roundReal_of_mul_pow_eq (by push_cast; rfl)
  rw [qFromReal, hround, sat_of_mem rfl h1 h2, qFromInt_eq_wordOf]

/-! ### Rationals (R79, R80) -/

theorem qToReal_mul_pow (c : Config) (w : Word) : qToReal c w * 2 ^ c.F = val c w :=
  div_mul_cancel₀ _ (by positivity)

theorem qFromReal_qToReal {c : Config} {w : Word} (h : IsWord c w) : qFromReal c (.finite (qToReal c w)) = some w := by
  rw [qFromReal, roundReal_of_mul_pow_eq (qToReal_mul_pow c w), sat_val h]

theorem MAXV_lt_roundReal_iff (c : Config) (r : Rat) :
    MAXV c < roundReal c r ↔ (MAXV c : Rat) + 1 ≤ r * 2 ^ c.F + 1 / 2 := by
  rw [roundReal_eq_floor, ← Int.add_one_le_iff, Int.le_floor]
  push_cast
  rfl

theorem roundReal_lt_MINV_iff (c : Config) (r : Rat) :
    roundReal c r < MINV c ↔ r * 2 ^ c.F + 1 / 2 < (MINV c : Rat) := by
  rw [roundReal_eq_floor, Int.floor_lt]

theorem qOverflows_finite_iff (c : Config) (r : Rat) :
    qOverflows c (.finite r) = true ↔ MAXV c < roundReal c r ∨ roundReal c r < MINV c := by
  simp [qOverflows]

/-- The rounded number is at most half a unit of the last place above the number, and less than that below (R80). -/
theorem roundReal_div_bounds (c : Config) (r : Rat) :
    r - 1 / 2 ^ (c.F + 1) < roundReal c r / 2 ^ c.F ∧ roundReal c r / 2 ^ c.F ≤ r + 1 / 2 ^ (c.F + 1) := by
  have hpow : (0:Rat) < 2 ^ c.F := by positivity
  have hulp : 1 / 2 ^ (c.F + 1) * 2 ^ c.F = (1 / 2 : Rat) := by rw [pow_succ]; field_simp
  have hle := Int.floor_le (r * 2 ^ c.F + 1 / 2)
  have hlt := Int.lt_floor_add_one (r * 2 ^ c.F + 1 / 2)
  rw [← roundReal_eq_floor] at hle hlt
  constructor
  · rw [lt_div_iff₀ hpow, sub_mul, hulp]
    linarith
  · rw [div_le_iff₀ hpow, add_mul, hulp]
    exact hle

theorem qToReal_sat_roundReal {c : Config} {r : Rat} (h : qOverflows c (.finite r) = false) :
    qToReal c (sat c (roundReal c r)) = roundReal c r / 2 ^ c.F := by
  rw [← Bool.not_eq_true, qOverflows_finite_iff, not_or, not_lt, not_lt] at h
  rw [qToReal, val_sat, clamp_of_mem h.2 h.1]

/-- Settles O19: the conversion is a floor, clamped. -/
theorem realConversionsRoundToNearest : Obligations.RealConversionsRoundToNearest := by
  intro c
  refine ⟨fun w => qFromReal_qToReal, fun r => ⟨_, rfl, fun h => ?_, fun h => ?_, fun h => ?_⟩, fun r => ?_, rfl, rfl,
    rfl, by decide +kernel, by decide +kernel, by decide +kernel, by decide +kernel, by decide +kernel,
    by decide +kernel⟩
  · rw [qToReal_sat_roundReal h]
    exact roundReal_div_bounds c r
  · exact sat_of_MAXV_le ((MAXV_lt_roundReal_iff c r).2 h).le
  · exact sat_of_le_MINV ((roundReal_lt_MINV_iff c r).2 h).le
  · rw [qOverflows_finite_iff, MAXV_lt_roundReal_iff, roundReal_lt_MINV_iff]

/-! ### The host's BUILD frame (R81, R152) -/

/-- A coefficient is sent as its word exactly when it does not overflow; a not-a-number has no word. -/
theorem quantiseCoefficient_eq_some_iff {c : Config} {r : HostReal} {w : Word} :
    quantiseCoefficient c r = some w ↔ qOverflows c r = false ∧ qFromReal c r = some w := by
  cases h : qOverflows c r <;> simp [quantiseCoefficient, h]

theorem exists_qFromReal_eq_some {r : HostReal} (h : r ≠ .nan) (c : Config) : ∃ w, qFromReal c r = some w := by
  cases r with
  | finite r => exact ⟨_, rfl⟩
  | posInf => exact ⟨_, rfl⟩
  | negInf => exact ⟨_, rfl⟩
  | nan => exact absurd rfl h

theorem quantiseAll_cons_eq_some_iff {c : Config} {r : HostReal} {rs : List HostReal} {ws : List Word} :
    quantiseAll c (r :: rs) = some ws ↔
      ∃ v vs, quantiseCoefficient c r = some v ∧ quantiseAll c rs = some vs ∧ ws = v :: vs := by
  rw [quantiseAll]
  cases quantiseCoefficient c r <;> cases quantiseAll c rs <;> simp [eq_comm]

/-- Quantising succeeds with the words of the coefficients in order, and only if no coefficient overflows. -/
theorem map_of_quantiseAll {c : Config} {rs : List HostReal} {ws : List Word} (h : quantiseAll c rs = some ws) :
    ws.map some = rs.map (qFromReal c) ∧ ∀ r ∈ rs, qOverflows c r = false ∧ r ≠ .nan := by
  induction rs generalizing ws with
  | nil =>
    obtain rfl : [] = ws := Option.some.inj h
    simp
  | cons r rs ih =>
    obtain ⟨v, vs, hr, hrs, rfl⟩ := quantiseAll_cons_eq_some_iff.1 h
    obtain ⟨hover, hword⟩ := quantiseCoefficient_eq_some_iff.1 hr
    obtain ⟨hwords, hall⟩ := ih hrs
    refine ⟨by rw [List.map_cons, List.map_cons, hword, hwords], List.forall_mem_cons.2 ⟨⟨hover, ?_⟩, hall⟩⟩
    rintro rfl
    cases hword

theorem exists_quantiseAll_eq_some {c : Config} {rs : List HostReal}
    (h : ∀ r ∈ rs, qOverflows c r = false ∧ r ≠ .nan) : ∃ ws, quantiseAll c rs = some ws := by
  induction rs with
  | nil => exact ⟨[], rfl⟩
  | cons r rs ih =>
    obtain ⟨⟨hover, hnan⟩, hall⟩ := List.forall_mem_cons.1 h
    obtain ⟨v, hv⟩ := exists_qFromReal_eq_some hnan c
    obtain ⟨vs, hvs⟩ := ih hall
    exact ⟨v :: vs, quantiseAll_cons_eq_some_iff.2 ⟨v, vs, quantiseCoefficient_eq_some_iff.2 ⟨hover, hv⟩, hvs, rfl⟩⟩

/-- When the host sends a frame, and which (R152). -/
theorem hostBuildFrame_eq_some_iff {c : Config} {k : Nat} {sections : List RealSection} {ws : List Word} :
    hostBuildFrame c k sections = some ws ↔
      (1 ≤ sections.length ∧ sections.length ≤ c.NS_MAX ∧ 2 ≤ k ∧ k ≤ K_MAX c) ∧
      ∃ payload, quantiseAll c (sections.flatMap RealSection.coefficients) = some payload ∧
        ws = headerWord Op.BUILD.code (BitVec.ofNat 8 sections.length) (BitVec.ofNat 16 k) :: payload := by
  by_cases hok : 1 ≤ sections.length ∧ sections.length ≤ c.NS_MAX ∧ 2 ≤ k ∧ k ≤ K_MAX c
  · rw [hostBuildFrame, if_neg (by omega), and_iff_right hok]
    cases quantiseAll c (sections.flatMap RealSection.coefficients) <;> simp [encode, eq_comm]
  · rw [hostBuildFrame, if_pos (by omega)]
    exact ⟨nofun, fun h => absurd h.1 hok⟩

/-- Settles O20: the host sends exactly when its checks pass and quantising succeeds. -/
theorem hostQuantisesOrAbandons : Obligations.HostQuantisesOrAbandons := by
  intro c k sections
  refine ⟨fun r hr hbad => ?_, fun ws h => ?_, fun h1 h2 h3 h4 hall => ?_⟩
  · rw [Option.eq_none_iff_forall_ne_some]
    intro ws h
    obtain ⟨-, payload, hq, -⟩ := hostBuildFrame_eq_some_iff.1 h
    obtain ⟨hover, hnan⟩ := (map_of_quantiseAll hq).2 r hr
    exact hbad.elim (fun hb => by rw [hover] at hb; cases hb) hnan
  · obtain ⟨⟨h1, h2, h3, h4⟩, payload, hq, hws⟩ := hostBuildFrame_eq_some_iff.1 h
    exact ⟨h1, h2, h3, h4, payload, hws, (map_of_quantiseAll hq).1⟩
  · obtain ⟨payload, hq⟩ := exists_quantiseAll_eq_some hall
    exact ⟨_, hostBuildFrame_eq_some_iff.2 ⟨⟨h1, h2, h3, h4⟩, payload, hq, rfl⟩⟩

/-! ### The block's answer to it (R106) -/

theorem length_flatMap_coefficients (ss : List RealSection) :
    (ss.flatMap RealSection.coefficients).length = 5 * ss.length := by
  induction ss with
  | nil => rfl
  | cons s ss ih => simp [ih, RealSection.coefficients]; omega

/-- A step on a whole BUILD frame whose checks pass. -/
theorem step_build {s : State} {ns : BitVec 8} {k : BitVec 16} {payload : List Word} (hr : s.rst = false)
    (hst : s.stalled = false) (hcmd : s.cmd = headerWord Op.BUILD.code ns k :: payload)
    (hp : payload.length = 5 * ns.toNat) (hc : buildCheck s.cfg ns k s.LIFE = none) :
    step s = .next (respond Op.BUILD.code .OK [] (buildState ns k payload { s with cmd := [] })) := by
  have hd : decode s.cmd = .frame (.build ns k payload) [] := by
    rw [hcmd, ← decode_build hp k [], List.append_nil]
  rw [step_frame hr hst hd]
  exact (execBuild_eq hp _).trans (by rw [hc])

/-- Settles O30: the host's checks are the block's, and both numbers fit their header fields. -/
theorem hostBootIsAccepted : Obligations.HostBootIsAccepted := by
  intro c k sections ws h
  obtain ⟨⟨hpos, hfit, hmin, hmax⟩, payload, hq, rfl⟩ := hostBuildFrame_eq_some_iff.1 h
  obtain ⟨-, -, -, -, -, hNS_MAX⟩ := c.valid
  have hK_MAX : K_MAX c ≤ 32767 := min_le_right _ _
  have hns : (BitVec.ofNat 8 sections.length).toNat = sections.length :=
    (BitVec.toNat_ofNat _ _).trans (Nat.mod_eq_of_lt (by omega))
  have hk : (BitVec.ofNat 16 k).toNat = k := (BitVec.toNat_ofNat _ _).trans (Nat.mod_eq_of_lt (by omega))
  have hlen : payload.length = 5 * sections.length := by
    have hwords := congrArg List.length (map_of_quantiseAll hq).1
    rwa [List.length_map, List.length_map, length_flatMap_coefficients] at hwords
  have hstep := step_build (s := { State.resetOf c with
      cmd := headerWord Op.BUILD.code (BitVec.ofNat 8 sections.length) (BitVec.ofNat 16 k) :: payload })
    rfl (State.stalled_of_rsp_nil rfl) rfl (by rw [hns, hlen])
    ((buildCheck_none_iff _ _ _ _).2 (by rw [hns, hk]; exact ⟨hmin, hmax, hpos, hfit, rfl⟩))
  exact ⟨_, hstep, rfl, hns, hk, rfl, rfl⟩

end Sys2Proof.Machine
end

