-- ==== Sys2Proof/Proofs/ComplexArithmetic.lean ====
section
/-!
PROOFS. Proofs/ComplexArithmetic.lean: the corner cases of the complex operations, lane by lane (R86 to R90).
-/

namespace Sys2Proof.Machine

/-! ### The scalar corner cases of the lanes (R68, R69, R71) -/

theorem qadd_MAXV_one (c : Config) : qadd c (wordOf (MAXV c)) (wordOf 1) = wordOf (MAXV c) :=
  sat_of_MAXV_le (by rw [val_wordOf_MAXV, val_wordOf_one]; omega)

theorem qsub_zero_MINV (c : Config) : qsub c 0#32 (wordOf (MINV c)) = wordOf (MAXV c) := by
  have := MAXV_eq c
  exact sat_of_MAXV_le (by rw [val_zero, val_wordOf_MINV]; omega)

/-- Only `MINV` has no negation in range: every other word is negated exactly by `-1.0`. -/
theorem qmul_neg_ONE_wordOf {c : Config} {n : Int} (h1 : MINV c < n) (h2 : n ≤ MAXV c) :
    qmul c (wordOf (-ONE c)) (wordOf n) = wordOf (-n) := by
  have := MAXV_eq c
  rw [qmul_neg_ONE, val_wordOf c h1.le h2]
  exact sat_of_mem rfl (by omega) (by omega)

/-! ### Addition and subtraction (R86, R87) -/

/-- The real lane clamps, the imaginary lane does not. -/
theorem cadd_MAXV_one (c : Config) :
    cadd c ⟨wordOf (MAXV c), 0⟩ ⟨wordOf 1, wordOf 1⟩ = ⟨wordOf (MAXV c), wordOf 1⟩ := by
  have := seven_le_MAXV c
  have := MINV_neg c
  exact congrArg₂ Cplx.mk (qadd_MAXV_one c) (qadd_zero_left (isWord_wordOf c (by omega) (by omega)))

theorem csub_self (c : Config) (z : Cplx) : csub c z z = czero :=
  congrArg₂ Cplx.mk (qsub_self c z.re) (qsub_self c z.im)

theorem csub_czero_MINV (c : Config) :
    csub c czero ⟨wordOf (MINV c), wordOf (MINV c)⟩ = ⟨wordOf (MAXV c), wordOf (MAXV c)⟩ :=
  congrArg₂ Cplx.mk (qsub_zero_MINV c) (qsub_zero_MINV c)

/-! ### Multiplication by a real scalar (R88) -/

theorem cscale_ONE {c : Config} {z : Cplx} (hre : IsWord c z.re) (him : IsWord c z.im) :
    cscale c (wordOf (ONE c)) z = z :=
  congrArg₂ Cplx.mk (qmul_ONE hre) (qmul_ONE him)

theorem cscale_zero_left (c : Config) (z : Cplx) : cscale c 0#32 z = czero :=
  congrArg₂ Cplx.mk (qmul_zero_left c z.re) (qmul_zero_left c z.im)

theorem cscale_czero (c : Config) (x : Word) : cscale c x czero = czero :=
  congrArg₂ Cplx.mk (qmul_zero_right c x) (qmul_zero_right c x)

/-- The real lane clamps, the imaginary lane is the exact negation. -/
theorem cscale_neg_ONE_MINV_five (c : Config) :
    cscale c (wordOf (-ONE c)) ⟨wordOf (MINV c), wordOf 5⟩ = ⟨wordOf (MAXV c), wordOf (-5)⟩ := by
  have := seven_le_MAXV c
  have := MINV_neg c
  exact congrArg₂ Cplx.mk (qmul_neg_ONE_MINV c) (qmul_neg_ONE_wordOf (by omega) (by omega))

/-- Settles O18: the lanes are by definition the scalar operations, whose corner cases are those of each lane; the
examples are evaluated. -/
theorem complexOperationsActPerLane : Obligations.ComplexOperationsActPerLane := fun c x y z =>
  ⟨rfl, rfl, rfl, rfl, rfl, cadd_MAXV_one c, csub_self c z, csub_czero_MINV c, cscale_ONE, cscale_zero_left c z,
    cscale_czero c x, cscale_neg_ONE_MINV_five c, by decide⟩

end Sys2Proof.Machine
end

