-- ==== Sys2Proof/Proofs/Stage.lean ====
section
/-!
PROOFS. Proofs/Stage.lean: one stage step: its nine operations, its corner cases, what it writes, and what it means in
exact arithmetic (R95 to R102).
-/

namespace Sys2Proof.Machine

/-! ### One lane (R97) -/

/-- The lane in multiply-accumulate form, as the right column of R97 has it. -/
theorem sosLane_eq (c : Config) (k : Coefs) (w1 w2 x : Word) :
    sosLane c k w1 w2 x =
      ⟨qmac c (qmac c (qmul c k.b0 (qmsu c (qmsu c x k.a1 w1) k.a2 w2)) k.b1 w1) k.b2 w2,
        qmsu c (qmsu c x k.a1 w1) k.a2 w2, w1⟩ := rfl

/-- R97's nine lines, run as a program, leave the lane's results in `y`, `w0` and the untouched `w1`. -/
theorem runLaneProgram_laneProgram (c : Config) (k : Coefs) (w1 w2 x : Word) :
    (⟨runLaneProgram c laneProgram (laneInputs k w1 w2 x) .y, runLaneProgram c laneProgram (laneInputs k w1 w2 x) .w0,
      runLaneProgram c laneProgram (laneInputs k w1 w2 x) .w1⟩ : LaneResult) = sosLane c k w1 w2 x := rfl

/-- Every intermediate is the result of a primitive operation, so a word (R97). -/
theorem isWord_sosLaneTrace (c : Config) (k : Coefs) (w1 w2 x : Word) :
    let t := sosLaneTrace c k w1 w2 x
    ∀ w ∈ [t.t1, t.a, t.t2, t.w0, t.u0, t.u1, t.s1, t.u2, t.y], IsWord c w := by
  simp only [List.forall_mem_cons]
  exact ⟨isWord_qmul _ _ _, isWord_qsub _ _ _, isWord_qmul _ _ _, isWord_qsub _ _ _, isWord_qmul _ _ _,
    isWord_qmul _ _ _, isWord_qadd _ _ _, isWord_qmul _ _ _, isWord_qadd _ _ _, nofun⟩

/-- Settles O22: the lane is defined as the nine operations; the worked example is evaluated. -/
theorem stageLaneIsNineOperationsInOrder : Obligations.StageLaneIsNineOperationsInOrder := by
  intro c b0 b1 b2 a1 a2 w1 w2 x
  have hrun := runLaneProgram_laneProgram c ⟨b0, b1, b2, a1, a2⟩ w1 w2 x
  exact ⟨rfl, rfl, rfl, rfl, ⟨congrArg LaneResult.w1 hrun, congrArg LaneResult.y hrun⟩,
    isWord_sosLaneTrace c _ w1 w2 x, by decide⟩

/-! ### Corner cases (R100, R102) -/

theorem qmac_zero_right {c : Config} {acc : Word} (h : IsWord c acc) (a : Word) : qmac c acc a 0#32 = acc := by
  rw [qmac, qmul_zero_right, qadd_zero_right h]

theorem qmsu_zero_right {c : Config} {acc : Word} (h : IsWord c acc) (a : Word) : qmsu c acc a 0#32 = acc := by
  rw [qmsu, qmul_zero_right, qsub_zero_right h]

/-- Settles O25: every product has a zero operand, and zero is a word. -/
theorem stageAtRestStaysAtRest : Obligations.StageAtRestStaysAtRest := by
  intro c k
  have hz := isWord_zero c
  simp [sosLane_eq, qmsu_zero_right hz, qmac_zero_right hz]

/-- With no coefficient but `b0` the stage scales its input and shifts its registers. -/
theorem sosLane_of_b0_only {c : Config} {x : Word} (h : IsWord c x) (b0 w1 w2 : Word) :
    sosLane c ⟨b0, 0#32, 0#32, 0#32, 0#32⟩ w1 w2 x = ⟨qmul c b0 x, x, w1⟩ := by
  have hy := isWord_qmul c b0 x
  simp only [sosLane_eq, qmsu_zero_product h, qmac_zero_product hy]

/-- Settles O26: both stages have no coefficient but `b0`. -/
theorem stageCornerCases : Obligations.StageCornerCases := by
  intro c w1 w2 x hx
  refine ⟨(sosLane_of_b0_only hx _ w1 w2).trans ?_, (sosLane_of_b0_only hx _ w1 w2).trans ?_⟩
  · rw [BitVec.ofNat_eq_ofNat, qmul_zero_left]
  · rw [qmul_ONE hx]

/-! ### The two registers (R98, R101) -/

section Registers

variable (c : Config) (coef : Memory) {s : Nat} (v : Cplx) {dly : Memory} (h : 4 * s + 3 < dly.length)
include h

/-- `W1[s]` receives the recursion value computed from the old registers. -/
theorem cplxRead_w1_sosStep :
    cplxRead (sosStep c coef s v dly).2 (w1Addr s) =
      cmsu c (cmsu c v (coefsOf coef s).a1 (cplxRead dly (w1Addr s))) (coefsOf coef s).a2 (cplxRead dly (w2Addr s)) :=
  congrArg₂ Cplx.mk (w1_sosStep c coef v h (lane := 0) (by omega)) (w1_sosStep c coef v h (lane := 1) (by omega))

/-- `W2[s]` receives the old `W1[s]`. -/
theorem cplxRead_w2_sosStep : cplxRead (sosStep c coef s v dly).2 (w2Addr s) = cplxRead dly (w1Addr s) :=
  congrArg₂ Cplx.mk (w2_sosStep c coef v h (lane := 0) (by omega)) (w2_sosStep c coef v h (lane := 1) (by omega))

theorem memRead_sosStep_other {a : Nat} (ha : a < 4 * s ∨ 4 * s + 4 ≤ a) :
    memRead (sosStep c coef s v dly).2 a = memRead dly a := by
  rw [memRead_sosStep c coef v h, if_neg (by omega), if_neg (by omega), if_neg (by omega), if_neg (by omega)]

end Registers

/-- Settles O24: the complex operations are the lanes' operations side by side. -/
theorem stageStepWritesOnlyItsRegisters : Obligations.StageStepWritesOnlyItsRegisters := fun c coef dly s v h =>
  ⟨rfl, rfl, rfl, rfl, cplxRead_w1_sosStep c coef v h, cplxRead_w2_sosStep c coef v h,
    sosStep_snd_length c coef s v dly, fun _ => memRead_sosStep_other c coef v h⟩

/-! ### Exact arithmetic (R95) -/

/-- The denominator: the recursion value and the two before it give back the input. -/
theorem exactRun_recursion (k : RealCoefs) (xs : Nat → Rat) (n : Nat) :
    (exactRun k xs (n + 1)).w1 + k.a1 * (exactRun k xs n).w1 + k.a2 * (exactRun k xs n).w2 = xs n := by
  simp only [exactRun, exactLane]
  ring

/-- The numerator: the output is a combination of the recursion value and the two before it. -/
theorem exactRun_y (k : RealCoefs) (xs : Nat → Rat) (n : Nat) :
    (exactRun k xs (n + 1)).y =
      k.b0 * (exactRun k xs (n + 1)).w1 + k.b1 * (exactRun k xs n).w1 + k.b2 * (exactRun k xs n).w2 := rfl

theorem exactRun_w2 (k : RealCoefs) (xs : Nat → Rat) (n : Nat) :
    (exactRun k xs (n + 1)).w2 = (exactRun k xs n).w1 := rfl

/-- Applying the denominator to the outputs applies it to the recursion values under the numerator, which leaves the
numerator applied to the inputs. -/
theorem exactRun_difference_equation (k : RealCoefs) (xs : Nat → Rat) (n : Nat) :
    (exactRun k xs (n + 3)).y + k.a1 * (exactRun k xs (n + 2)).y + k.a2 * (exactRun k xs (n + 1)).y =
      k.b0 * xs (n + 2) + k.b1 * xs (n + 1) + k.b2 * xs n := by
  have hnow := exactRun_recursion k xs (n + 2)
  have hlast := exactRun_recursion k xs (n + 1)
  have hfirst := exactRun_recursion k xs n
  simp only [exactRun_y, exactRun_w2] at hnow hlast hfirst ⊢
  linear_combination k.b0 * hnow + k.b1 * hlast + k.b2 * hfirst

/-- A hardware lane none of whose operations rounds or clamps computes the exact lane. -/
theorem exactLane_of_traceIsExact {c : Config} {k : Coefs} {w1 w2 x : Word}
    (h : TraceIsExact c k w1 w2 x (sosLaneTrace c k w1 w2 x)) :
    exactLane (realCoefs c k) (qToReal c w1) (qToReal c w2) (qToReal c x) =
      ⟨qToReal c (sosLane c k w1 w2 x).y, qToReal c (sosLane c k w1 w2 x).w1, qToReal c (sosLane c k w1 w2 x).w2⟩ := by
  simp only [exactLane, realCoefs, sosLane, h.y, h.s1, h.u0, h.u1, h.u2, h.w0, h.a, h.t1, h.t2]

/-- Settles O23: before the first two inputs the recursion values are those of rest. -/
theorem exactStageRealisesItsTransferFunction : Obligations.ExactStageRealisesItsTransferFunction := by
  refine ⟨fun k xs => ⟨?_, ?_, exactRun_difference_equation k xs⟩, fun c k w1 w2 x => exactLane_of_traceIsExact⟩
  · simp [exactRun, exactLane]
  · simp only [exactRun, exactLane]
    ring

end Sys2Proof.Machine
end

