-- ==== Sys2Proof/Proofs/Cost.lean ====
section
/-!
PROOFS. Proofs/Cost.lean: what the counted walk of an EXEC counts, and that it computes that EXEC (R103, R160).
-/

namespace Sys2Proof.Machine

/-- A lane of a stage step: five products, two differences, two sums (R103). -/
theorem countedLane_eq (c : Config) (k : Coefs) (w1 w2 x : Word) (n : OpCount) :
    countedLane c k w1 w2 x n = (sosLane c k w1 w2 x, ⟨n.qmul + 5, n.qsub + 2, n.qadd + 2⟩) := by
  rw [countedLane, countedLaneProgram_fst, countedLaneProgram_snd, runLaneProgram_laneProgram]
  rfl

/-- A complex stage step is two lanes (R98, R103). -/
theorem countedSosStep_eq (c : Config) (coef dly : Memory) (s : Nat) (v : Cplx) (n : OpCount) :
    countedSosStep c coef s v dly n = (sosStep c coef s v dly, ⟨n.qmul + 10, n.qsub + 4, n.qadd + 4⟩) := by
  simp only [countedSosStep, countedLane_eq]
  rfl

/-- `m` stage steps (R160). -/
theorem countedSeqRun_eq (c : Config) (coef : Memory) (ns m : Nat) (q : Seq) (n : OpCount) :
    countedSeqRun c coef ns m (q, n) =
      (seqRun c coef ns m q, ⟨n.qmul + 10 * m, n.qsub + 4 * m, n.qadd + 4 * m⟩) := by
  induction m generalizing q n with
  | zero => rfl
  | succ m ih =>
    simp only [countedSeqRun, countedSeqStep, countedSosStep_eq, ih, seqRun, seqStep, Prod.mk.injEq,
      OpCount.mk.injEq, true_and]
    omega

/-- The output gain is two products a sample (R113). -/
theorem countedGain_snd (c : Config) (g : Word) (zs : List Cplx) (n : OpCount) :
    (countedGain c g zs n).2 = ⟨n.qmul + 2 * zs.length, n.qsub, n.qadd⟩ := by
  induction zs generalizing n with
  | nil => rfl
  | cons z zs ih =>
    simp only [countedGain, countedScale, ih, OpCount.tick, List.length_cons, OpCount.mk.injEq, and_true]
    omega

/-- The walk of an EXEC gives its response payload and delay memory, and counts `K * NS` stage steps and `K` scalings
(R107, R160). -/
theorem countedExec_eq (x : Cplx) {s : State} (hns : 1 ≤ s.NS.toNat) :
    countedExec x s =
      ((execPayload x s, (execPasses x s).2),
        ⟨10 * s.K.toNat * s.NS.toNat + 2 * s.K.toNat, 4 * s.K.toNat * s.NS.toNat, 4 * s.K.toNat * s.NS.toNat⟩) := by
  have hraw : (seqAtPass s.cfg s.COEF s.NS.toNat x s.DLY s.K.toNat).RAW.length = s.K.toNat := by
    rw [seqAtPass, runPasses_length, virtualSamples_length]
  simp only [countedExec, countedSeqRun_eq, seqRun_passes s.cfg s.COEF hns, countedGain_fst, countedGain_snd, hraw,
    Nat.zero_add, Nat.mul_assoc]
  rfl

/-- Settles O27: the counted walk of a live EXEC computes what the atomic EXEC answers. -/
theorem operationCounts : Obligations.OperationCounts := by
  refine ⟨countedLane_eq, countedSosStep_eq, fun s re im hs hlife => ?_⟩
  have hl := (live_iff _).2 hlife
  rw [countedExec_eq (sampleOperand s.cfg re im) (hs.live hl).sections_pos]
  refine ⟨(execExec_of_inv hs hl re im).trans ?_, rfl, fun hns hk => by rw [hns, hk]; rfl⟩
  rw [execOk, respond, Response.words, Response.header, Response.count, execPayload_length]
  rfl

end Sys2Proof.Machine
end

