-- ==== Sys2Proof/Proofs/CommandAnswers.lean ====
section
/-!
PROOFS. Proofs/CommandAnswers.lean: what each command answers, written out: BUILD's first failing check, the passes and
the scaled outputs of an EXEC, the usage errors, and the lifecycle table (R106 to R110, R112 to R114, R117).
-/

namespace Sys2Proof.Machine

/-! ### Errors (R106 to R109, R133, R134) -/

/-- A BUILD with a failing check answers it and changes nothing else (R106, R133). -/
theorem execBuild_error {ns : BitVec 8} {k : BitVec 16} {payload : List Word} (hp : payload.length = 5 * ns.toNat)
    {s : State} {e : Status} (h : buildCheck s.cfg ns k s.LIFE = some e) :
    execBuild ns k payload s = .next (raiseError Op.BUILD.code e s) := by rw [execBuild_eq hp, h]

/-- EXEC on a live cascade with no section (R107). -/
theorem execExec_empty {s : State} (hl : s.LIFE.live = true) (h0 : s.NS = 0#8) (re im : Word) :
    execExec re im s = .next (raiseError Op.EXEC.code .USAGE_ERR_EMPTY s) := by
  simp [execExec, execCheck, hl, h0]

/-- A BUILD on a live cascade passes every check but the last (R106). -/
theorem buildCheck_live {c : Config} {ns : BitVec 8} {k : BitVec 16} {l : Life} (hmin : 2 ≤ k.toNat)
    (hmax : k.toNat ≤ K_MAX c) (hpos : 1 ≤ ns.toNat) (hfit : ns.toNat ≤ c.NS_MAX) (hl : l.live = true) :
    buildCheck c ns k l = some .BUILD_ERR_LIVE := by
  rw [buildCheck, if_neg (by omega), if_neg (by omega), if_neg (by omega), if_neg (by omega), if_pos hl]

/-- Settles O28: each premise makes the checks before one pass and that one fail. -/
theorem buildReportsTheFirstFailingCheck : Obligations.BuildReportsTheFirstFailingCheck := by
  intro s ns k payload hp
  refine ⟨fun hk => ?_, fun hk hns => ?_, fun hk hns hmax => ?_, fun hk hns hmax hfit => ?_,
    fun hk hns hmax hfit hlife => execBuild_error hp (buildCheck_live hk hmax hns hfit ((live_iff _).2 hlife))⟩
  · exact execBuild_error hp (e := .BUILD_ERR_K) (by rw [buildCheck, if_pos hk])
  · exact execBuild_error hp (e := .BUILD_ERR_EMPTY) (by rw [buildCheck, if_neg (by omega), if_pos hns])
  · exact execBuild_error hp (e := .BUILD_ERR_K_RANGE)
      (by rw [buildCheck, if_neg (by omega), if_neg (by omega), if_pos hmax])
  · exact execBuild_error hp (e := .BUILD_ERR_NS_RANGE)
      (by rw [buildCheck, if_neg (by omega), if_neg (by omega), if_neg (by omega), if_pos hfit])

/-- Settles O32: the two checks of EXEC. -/
theorem execUsageErrors : Obligations.ExecUsageErrors := fun _ re im =>
  ⟨fun hlife => execExec_notLive re im ((not_live_iff _).2 hlife),
    fun hlife h0 => execExec_empty ((live_iff _).2 hlife) h0 re im⟩

/-- Settles O42: the handle check of both commands. -/
theorem resetAndDestroyNeedALiveCascade : Obligations.ResetAndDestroyNeedALiveCascade := fun _ hlife =>
  ⟨execReset_notLive ((not_live_iff _).2 hlife), execDestroy_notLive ((not_live_iff _).2 hlife)⟩

/-! ### The passes of an EXEC and its response (R112, R113, R117) -/

theorem virtualSamples_of_pos (x : Cplx) {k : Nat} (hk : 1 ≤ k) :
    virtualSamples x k = x :: List.replicate (k - 1) czero := by
  obtain ⟨k, rfl⟩ := Nat.exists_eq_add_of_le' hk
  rfl

/-- Scaling by the gain word of `k` is multiplying by `k` and clamping (R82, R113). -/
theorem cscale_qFromInt {c : Config} {k : Nat} (hk : k ≤ K_MAX c) (z : Cplx) :
    cscale c (qFromInt c k) z = ⟨sat c (k * val c z.re), sat c (k * val c z.im)⟩ := by
  have hgain : val c (qFromInt c k) = k * 2 ^ c.F := val_qFromInt (Int.natCast_nonneg k) (gain_fits hk)
  exact congrArg₂ Cplx.mk (qmul_of_val_eq_mul_pow hgain z.re) (qmul_of_val_eq_mul_pow hgain z.im)

theorem LiveOk.cscale_gain {s : State} (h : LiveOk s) (z : Cplx) :
    cscale s.cfg s.G z = ⟨sat s.cfg (s.K.toNat * val s.cfg z.re), sat s.cfg (s.K.toNat * val s.cfg z.im)⟩ := by
  rw [h.gain, cscale_qFromInt h.factor_fits]

/-- The payload of a live EXEC, each raw output times `K` and clamped (R52, R113). -/
theorem LiveOk.execPayload_eq {s : State} (h : LiveOk s) (x : Cplx) :
    execPayload x s = (execPasses x s).1.flatMap
      (fun z => [sat s.cfg (s.K.toNat * val s.cfg z.re), sat s.cfg (s.K.toNat * val s.cfg z.im)]) := by
  simp only [execPayload, outWords, outputGain, List.flatMap_map, h.cscale_gain]

/-- The response of a successful EXEC announces its `2 * k` words (R51, R117). -/
theorem words_of_length_eq {payload : List Word} {k : Nat} (h : payload.length = 2 * k) :
    (Response.mk Op.EXEC.code .OK payload).words =
      (0x02#8 ++ 0x00#8 ++ BitVec.ofNat 16 (2 * k)) :: payload := by
  rw [Response.words, Response.header, Response.count, h]
  rfl

/-- Settles O31: an EXEC under the invariant is the passes over its virtual samples, its gain word that of `K`. -/
theorem execRunsKPassesAndScalesThem : Obligations.ExecRunsKPassesAndScalesThem := by
  intro s re im hi hlife
  have hl := (live_iff _).2 hlife
  have hok := hi.live hl
  refine ⟨(execExec_of_inv hi hl re im).trans ?_, hok.cscale_gain⟩
  have hk : 1 ≤ s.K.toNat := le_trans (by decide) hok.factor_min
  rw [execOk, respond, words_of_length_eq (execPayload_length _ s), hok.execPayload_eq, execPasses,
    virtualSamples_of_pos _ hk]
  rfl

/-! ### The lifecycle table (R114) -/

/-- Settles O43, cell by cell: the rows of a live cascade and those of one that is not. -/
theorem lifecycleTable : Obligations.LifecycleTable := by
  intro s hi
  cases hl : s.LIFE.live with
  | false =>
    have hdead := (not_live_iff _).1 hl
    have hlive : ¬(s.LIFE = .CREATED ∨ s.LIFE = .EXECUTING) := by rw [← live_iff, hl]; decide
    simp only [if_pos hdead, if_neg hlive]
    refine ⟨fun ns k payload hp hmin hmax hpos hfit => ?_, fun re im => ?_, ?_, ?_, fun h => ⟨rfl, rfl⟩⟩
    · have hc := (buildCheck_none_iff _ _ _ _).2 ⟨hmin, hmax, hpos, hfit, hl⟩
      exact ⟨_, (execBuild_eq hp s).trans (by rw [hc]), rfl, rfl⟩
    · exact ⟨_, [], execExec_notLive re im hl, rfl, rfl⟩
    · exact ⟨_, execReset_notLive hl, rfl, rfl⟩
    · exact ⟨_, execDestroy_notLive hl, rfl, rfl⟩
  | true =>
    have hlive := (live_iff _).1 hl
    have hdead : ¬(s.LIFE = .NONE ∨ s.LIFE = .DESTROYED) := by rw [← not_live_iff, hl]; decide
    simp only [if_pos hlive, if_neg hdead]
    refine ⟨fun ns k payload hp hmin hmax hpos hfit => ?_, fun re im => ?_, ?_, ?_, fun h => ⟨rfl, rfl⟩⟩
    · exact ⟨_, execBuild_error hp (buildCheck_live hmin hmax hpos hfit hl), rfl, rfl⟩
    · have hwords := words_of_length_eq (execPayload_length (sampleOperand s.cfg re im) s)
      exact ⟨_, _, execExec_of_inv hi hl re im, rfl, congrArg (s.rsp ++ ·) hwords⟩
    · exact ⟨_, execReset_of_inv hi hl, rfl, rfl⟩
    · exact ⟨_, execDestroy_live hl, rfl, rfl⟩

end Sys2Proof.Machine
end

