-- ==== Sys2Proof/Proofs/ExecRuns.lean ====
section
/-!
PROOFS. Proofs/ExecRuns.lean: runs of several EXECs with a host that takes its responses: they are the cascade over the
zero-stuffed sequence (R116), emit `K` samples each (R117), and from rest answer zeros to zeros (R118).
-/

namespace Sys2Proof.Machine

/-! ### A run that begins with a whole command (R105, R125) -/

/-- A reading host is never in the way of the next command, whatever the buffering (R155). -/
theorem step_encode {s : State} {i : Instr} {rest : List Word} (hr : s.rst = false) (hw : WellFormed i)
    (hcmd : s.cmd = encode i ++ rest) : step { s with rsp := [] } = exec i { s with cmd := rest, rsp := [] } :=
  step_frame (s := { s with rsp := [] }) hr (State.stalled_of_rsp_nil rfl)
    (by rw [hcmd]; exact decodeOfEncodeIsTheCommand i rest hw)

/-- The run goes on from the state the command leaves. -/
theorem hostRun_encode {s t u : State} {i : Instr} {rest words : List Word} {n : Nat} (hr : s.rst = false)
    (hw : WellFormed i) (hcmd : s.cmd = encode i ++ rest) (he : exec i { s with cmd := rest, rsp := [] } = .next t)
    (hrun : hostRun n t = some (u, words)) : hostRun (n + 1) s = some (u, s.rsp ++ words) := by
  rw [hostRun_succ n ((step_encode hr hw hcmd).trans he), hrun]
  rfl

/-! ### A run of EXECs (R116, R117) -/

/-- The channel words of successful EXEC responses with these payloads, in order (R51, R52). -/
def execResponses (payloads : List (List Word)) : List Word :=
  payloads.flatMap (fun p => (Response.mk Op.EXEC.code .OK p).words)

theorem execResponses_cons (p : List Word) (ps : List (List Word)) :
    execResponses (p :: ps) = (Response.mk Op.EXEC.code .OK p).words ++ execResponses ps := List.flatMap_cons

/-- The payloads of `n` EXECs on a cascade whose raw outputs are `raw`: `2 * k` words each, and together the outputs,
each scaled by the gain (R113, R117). -/
structure ScaledPayloads (c : Config) (g : Word) (k n : Nat) (raw : List Cplx) (payloads : List (List Word)) :
    Prop where
  count : payloads.length = n
  length_eq : ∀ p ∈ payloads, p.length = 2 * k
  flatten_eq : payloads.flatten = outWords (outputGain c g raw)

theorem ScaledPayloads.cons {c : Config} {g : Word} {k n : Nat} {raw raw' : List Cplx} {payloads : List (List Word)}
    (h : ScaledPayloads c g k n raw' payloads) (hraw : raw.length = k) :
    ScaledPayloads c g k (n + 1) (raw ++ raw') (outWords (outputGain c g raw) :: payloads) where
  count := congrArg Nat.succ h.count
  length_eq := List.forall_mem_cons.2 ⟨by simp [outputGain, hraw], h.length_eq⟩
  flatten_eq := by
    rw [List.flatten_cons, h.flatten_eq]
    simp [outputGain, outWords]

theorem execFrames_cons (x : Word × Word) (xs : List (Word × Word)) :
    execFrames (x :: xs) = encode (.exec x.1 x.2) ++ execFrames xs := List.flatMap_cons

theorem zeroStuff_samplesOf_cons (c : Config) (k : Nat) (x : Word × Word) (xs : List (Word × Word)) :
    zeroStuff k (samplesOf c (x :: xs)) =
      virtualSamples (sampleOperand c x.1 x.2) k ++ zeroStuff k (samplesOf c xs) := List.flatMap_cons

/-- `N` EXECs on a live cascade leave the delay memory of the passes over the zero-stuffed sequence, and their payloads
are its raw outputs, scaled (R116). -/
theorem hostRun_execFrames {xs : List (Word × Word)} {s : State} {rest : List Word} (hi : Inv s)
    (hl : s.LIFE.live = true) (hr : s.rst = false) (hcmd : s.cmd = execFrames xs ++ rest) :
    ∃ t payloads, hostRun xs.length s = some (t, s.rsp ++ execResponses payloads) ∧ t.cmd = rest ∧
      t.DLY = (runPasses s.cfg s.COEF s.NS.toNat (zeroStuff s.K.toNat (samplesOf s.cfg xs)) s.DLY).2 ∧
      ScaledPayloads s.cfg s.G s.K.toNat xs.length
        (runPasses s.cfg s.COEF s.NS.toNat (zeroStuff s.K.toNat (samplesOf s.cfg xs)) s.DLY).1 payloads := by
  induction xs generalizing s with
  | nil =>
    exact ⟨{ s with rsp := [] }, [], by simp [hostRun, execResponses], hcmd, rfl, rfl, nofun, rfl⟩
  | cons x xs ih =>
    rw [execFrames_cons, List.append_assoc] at hcmd
    have hnext : Inv { s with cmd := execFrames xs ++ rest, rsp := [] } := hi.withStreams _ _
    have he := execExec_of_inv hnext hl x.1 x.2
    obtain ⟨t, payloads, hrun, htcmd, htdly, hpayloads⟩ := ih (inv_exec (i := .exec x.1 x.2) hnext he) rfl hr rfl
    have hraw : (execPasses (sampleOperand s.cfg x.1 x.2) s).1.length = s.K.toNat := by
      rw [execPasses, runPasses_length, virtualSamples_length]
    rw [zeroStuff_samplesOf_cons, runPasses_append]
    exact ⟨t, execPayload (sampleOperand s.cfg x.1 x.2) s :: payloads, hostRun_encode hr rfl hcmd he hrun, htcmd, htdly,
      hpayloads.cons hraw⟩

theorem length_execResponses {payloads : List (List Word)} {m : Nat} (h : ∀ p ∈ payloads, p.length = m) :
    (execResponses payloads).length = payloads.length * (1 + m) := by
  induction payloads with
  | nil => simp [execResponses]
  | cons p ps ih =>
    obtain ⟨hp, hps⟩ := List.forall_mem_cons.1 h
    rw [execResponses_cons, List.length_append, ih hps, Response.words, List.length_cons, List.length_cons, hp]
    ring

/-- The host reads the responses back, one frame each (R51). -/
theorem takeResponses_execResponses {payloads : List (List Word)} (h : ∀ p ∈ payloads, p.length < 2 ^ 16) :
    takeResponses payloads.length (execResponses payloads) =
      payloads.map (RspFrame.mk Op.EXEC.code Status.OK.code) := by
  induction payloads with
  | nil => rfl
  | cons p ps ih =>
    obtain ⟨hp, hps⟩ := List.forall_mem_cons.1 h
    have htake : takeResponse (execResponses (p :: ps)) =
        some (⟨Op.EXEC.code, Status.OK.code, p⟩, execResponses ps) := by
      rw [execResponses_cons]
      exact takeResponse_words _ _ p _ hp
    rw [List.length_cons, takeResponses, htake, List.map_cons, ← ih hps]

/-- The factor of a live cascade keeps `2 * K` inside `COUNT` (R2, R51). -/
theorem LiveOk.factor_le {s : State} (h : LiveOk s) : s.K.toNat ≤ 32767 := h.factor_fits.trans (K_MAX_le s.cfg)

/-- Settles O36: the run of the EXECs, whose responses the host reads back because `2 * K` fits `COUNT`. -/
theorem execsRunOverTheZeroStuffedSequence : Obligations.ExecsRunOverTheZeroStuffedSequence := by
  intro s xs rest hi hl hr hcmd
  obtain ⟨t, payloads, hrun, htcmd, htdly, hcount, hlen, hflat⟩ := hostRun_execFrames hi hl hr hcmd
  have hk := (hi.live hl).factor_le
  have htake := takeResponses_execResponses (payloads := payloads) (fun p hp => by rw [hlen p hp]; omega)
  rw [hcount] at htake
  refine ⟨t, _, hrun, htdly, htcmd, ?_, ?_⟩
  · rw [List.drop_left, htake, List.length_map, hcount]
  · rw [List.drop_left, htake, List.flatMap_map]
    exact List.flatMap_id.trans hflat

/-- Settles O35: of one EXEC the response, of `N` the run, which is the same for every buffering. -/
theorem everyExecEmitsKSamples : Obligations.EveryExecEmitsKSamples := by
  refine ⟨fun s t re im hi he => ⟨fun hl => ?_, fun hl => ?_⟩, fun s xs rest hi hl hr hcmd => ?_⟩
  · obtain rfl := Host.Outcome.next.inj ((execExec_of_inv hi hl re im).symm.trans he)
    have hk := (hi.live hl).factor_le
    refine ⟨_, execPayload_length (sampleOperand s.cfg re im) s, rfl, ?_⟩
    rw [execPayload_length, BitVec.toNat_ofNat, Nat.mod_eq_of_lt (by omega)]
  · obtain rfl := Host.Outcome.next.inj ((execExec_notLive re im hl).symm.trans he)
    rfl
  · obtain ⟨t, payloads, hrun, htcmd, -, hcount, hlen, -⟩ := hostRun_execFrames hi hl hr hcmd
    exact ⟨t, _, hrun, htcmd, by rw [List.length_append, length_execResponses hlen, hcount]⟩

/-! ### Rest (R26, R100, R118) -/

/-- The delay registers of the first `ns` sections are zero (R26). -/
abbrev DelaysAtRest (ns : Nat) (dly : Memory) : Prop := ∀ a < 4 * ns, memRead dly a = 0#32

theorem atRest_iff (s : State) : AtRest s ↔ DelaysAtRest s.NS.toNat s.DLY := Iff.rfl

theorem delaysAtRest_clearDelays {dly : Memory} {ns : Nat} (h : 4 * ns ≤ dly.length) :
    DelaysAtRest ns (clearDelays dly ns) := fun a ha => by rw [memRead_clearDelays h, if_pos ha]

section Rest

variable (c : Config) (coef : Memory) {ns : Nat} {dly : Memory} (hfits : 4 * ns ≤ dly.length)
  (h : DelaysAtRest ns dly)
include hfits h

/-- A stage at rest answers zero to zero and stays as it is, whatever its coefficients (R100). -/
theorem sosStep_czero_of_rest {s : Nat} (hs : s < ns) : sosStep c coef s czero dly = (czero, dly) := by
  have hlane : sosLane c (coefsOf coef s) 0#32 0#32 0#32 = ⟨0#32, 0#32, 0#32⟩ := stageAtRestStaysAtRest c _
  have hzero : ∀ j < 4, memRead dly (4 * s + j) = 0#32 := fun j hj => h _ (by omega)
  have hw1 : memRead dly (4 * s) = 0#32 := hzero 0 (by omega)
  refine Prod.ext ?_ (memory_ext (sosStep_snd_length c coef s czero dly) fun a => ?_)
  · rw [sosStep_fst, hw1, hzero 1 (by omega), hzero 2 (by omega), hzero 3 (by omega)]
    simp [czero, hlane]
  · rw [memRead_sosStep c coef czero (by omega), hw1, hzero 1 (by omega), hzero 2 (by omega), hzero 3 (by omega)]
    by_cases ha : 4 * s ≤ a ∧ a < 4 * s + 4
    · rw [h a (by omega)]
      simp [czero, hlane]
    · rw [if_neg (by omega), if_neg (by omega), if_neg (by omega), if_neg (by omega)]

theorem cascadePass_czero_of_rest {n : Nat} (hn : n ≤ ns) : cascadePass c coef czero dly n = (czero, dly) := by
  induction n with
  | zero => rfl
  | succ n ih => rw [cascadePass, ih (by omega), sosStep_czero_of_rest c coef hfits h hn]

theorem runPasses_czero_of_rest (m : Nat) :
    runPasses c coef ns (List.replicate m czero) dly = (List.replicate m czero, dly) := by
  induction m with
  | zero => rfl
  | succ m ih =>
    rw [List.replicate_succ, runPasses, cascadePass_czero_of_rest c coef hfits h le_rfl]
    simp only [ih]

end Rest

theorem zeroStuff_samplesOf_zeros (c : Config) {k : Nat} (hk : 1 ≤ k) (n : Nat) :
    zeroStuff k (samplesOf c (List.replicate n (0, 0))) = List.replicate (n * k) czero := by
  have hsample : sampleOperand c 0 0 = czero := congrArg₂ Cplx.mk (isWord_zero c) (isWord_zero c)
  have hstuff : virtualSamples czero k = List.replicate k czero := by
    rw [virtualSamples_of_pos _ hk, ← List.replicate_succ, Nat.sub_add_cancel hk]
  rw [samplesOf, List.map_replicate, hsample, zeroStuff, List.flatMap_replicate, hstuff,
    List.flatten_replicate_replicate]

/-- Zeros scale to zero words (R88, R113). -/
theorem eq_zero_of_mem_outWords_czero {c : Config} {g w : Word} {m : Nat}
    (hw : w ∈ outWords (outputGain c g (List.replicate m czero))) : w = 0#32 := by
  rw [outputGain, List.map_replicate, cscale_czero, outWords, List.mem_flatMap] at hw
  obtain ⟨z, hz, hw⟩ := hw
  rw [List.eq_of_mem_replicate hz] at hw
  simpa [czero] using hw

/-- The response words of `n` EXECs that answer only zeros (R52, R118). -/
def zeroResponses (k n : Nat) : List Word :=
  (List.replicate n ((0x02#8 ++ 0x00#8 ++ BitVec.ofNat 16 (2 * k)) :: List.replicate (2 * k) 0)).flatten

theorem ScaledPayloads.execResponses_czero {c : Config} {g : Word} {k n m : Nat} {payloads : List (List Word)}
    (h : ScaledPayloads c g k n (List.replicate m czero) payloads) : execResponses payloads = zeroResponses k n := by
  have hpayloads : payloads = List.replicate n (List.replicate (2 * k) 0#32) := by
    refine List.eq_replicate_iff.2 ⟨h.count, fun p hp => ?_⟩
    refine List.eq_replicate_iff.2 ⟨h.length_eq p hp, fun w hw => ?_⟩
    have hmem : w ∈ payloads.flatten := List.mem_flatten_of_mem hp hw
    rw [h.flatten_eq] at hmem
    exact eq_zero_of_mem_outWords_czero hmem
  rw [hpayloads, execResponses, List.flatMap_def, List.map_replicate, words_of_length_eq List.length_replicate]
  rfl

/-- Zero samples into a live cascade at rest come out as zero words (R118). -/
theorem hostRun_zeros_of_rest {s : State} {n : Nat} {rest : List Word} (hi : Inv s) (hl : s.LIFE.live = true)
    (hr : s.rst = false) (hrest : AtRest s) (hcmd : s.cmd = execFrames (List.replicate n (0, 0)) ++ rest) :
    ∃ t, hostRun n s = some (t, s.rsp ++ zeroResponses s.K.toNat n) ∧ t.cmd = rest := by
  obtain ⟨t, payloads, hrun, htcmd, -, hpayloads⟩ := hostRun_execFrames hi hl hr hcmd
  rw [zeroStuff_samplesOf_zeros _ (le_trans (by decide) (hi.live hl).factor_min),
    runPasses_czero_of_rest _ _ (hi.dly_fits hl) ((atRest_iff s).1 hrest)] at hpayloads
  rw [hpayloads.execResponses_czero, List.length_replicate] at hrun
  exact ⟨t, hrun, htcmd⟩

/-- A command that leaves a live cascade at rest, then zero samples. -/
theorem hostRun_encode_zeros {s t : State} {i : Instr} {n : Nat} {rest : List Word} (hi : Inv s) (hr : s.rst = false)
    (hw : WellFormed i) (hcmd : s.cmd = encode i ++ (execFrames (List.replicate n (0, 0)) ++ rest))
    (he : exec i { s with cmd := execFrames (List.replicate n (0, 0)) ++ rest, rsp := [] } = .next t)
    (hl : t.LIFE.live = true) (hrest : AtRest t) :
    ∃ u words, hostRun (1 + n) s = some (u, words) ∧ u.cmd = rest ∧
      words = s.rsp ++ (t.rsp ++ zeroResponses t.K.toNat n) := by
  obtain ⟨htcmd, -, htrst, -⟩ := exec_keeps_streams he
  obtain ⟨u, hrun, hucmd⟩ := hostRun_zeros_of_rest (inv_exec (hi.withStreams _ _) he) hl (htrst.trans hr) hrest htcmd
  rw [Nat.add_comm]
  exact ⟨u, _, hostRun_encode hr hw hcmd he hrun, hucmd, rfl⟩

/-- Settles O37: both commands leave a live cascade at rest. -/
theorem zeroInputAfterResetGivesZeroOutput : Obligations.ZeroInputAfterResetGivesZeroOutput := by
  refine ⟨fun s n rest hi hl hr hcmd => ?_, fun s ns k payload n rest hi hl hr hp hmin hmax hpos hfit hcmd => ?_⟩
  · have he := execReset_of_inv (hi.withStreams (execFrames (List.replicate n (0, 0)) ++ rest) []) hl
    exact hostRun_encode_zeros hi hr rfl hcmd he rfl
      ((atRest_iff _).2 (delaysAtRest_clearDelays (hi.dly_fits hl)))
  · have hc := (buildCheck_none_iff _ _ _ _).2 ⟨hmin, hmax, hpos, hfit, hl⟩
    have hdly : 4 * ns.toNat ≤ s.DLY.length := by rw [hi.length_DLY]; omega
    have he : exec (.build ns k payload) { s with cmd := execFrames (List.replicate n (0, 0)) ++ rest, rsp := [] } =
        .next (respond Op.BUILD.code .OK [] (buildState ns k payload _)) := (execBuild_eq hp _).trans (by rw [hc])
    exact hostRun_encode_zeros hi hr ((wellFormed_build_iff ns k payload).2 hp) hcmd he rfl
      ((atRest_iff _).2 (delaysAtRest_clearDelays hdly))

end Sys2Proof.Machine
end

