-- ==== Sys2Proof/Proofs/StatusCodes.lean ====
section
/-!
PROOFS. Proofs/StatusCodes.lean: the status codes and their kinds, which command raises which of them, and that a
command that raises one changes nothing else (R131 to R133).
-/

namespace Sys2Proof.Machine

/-! ### Codes and kinds (R131) -/

theorem kindOfCode_code (st : Status) : kindOfCode st.code = some st.kind := by cases st <;> rfl

theorem Status.kind_ne_designError (st : Status) : st.kind ≠ .designError := by cases st <;> decide

/-- The status of a code of R131's table. -/
def statusOfCode (b : BitVec 8) : Option Status :=
  [.OK, .BUILD_ERR_K, .BUILD_ERR_EMPTY, .BUILD_ERR_K_RANGE, .BUILD_ERR_NS_RANGE, .BUILD_ERR_LIVE, .USAGE_ERR_HANDLE,
    .USAGE_ERR_EMPTY, .ILLEGAL_CMD].find? (fun st => st.code == b)

theorem statusOfCode_code (st : Status) : statusOfCode st.code = some st := by cases st <;> rfl

theorem Status.code_injective : Function.Injective Status.code := fun a b h =>
  Option.some.inj (by rw [← statusOfCode_code a, h, statusOfCode_code b])

/-- Settles O46: the kind is read from the code, no kind is that of a design error, and the code determines the
status. -/
theorem statusHighNibbleIsTheKind : Obligations.StatusHighNibbleIsTheKind :=
  ⟨kindOfCode_code, fun _ _ h => Status.code_injective h,
    fun st h => st.kind_ne_designError (Option.some.inj ((kindOfCode_code st).symm.trans h))⟩

/-! ### What a command answers (R132, R133) -/

/-- The errors of each command (R132). -/
def errorsOf : Op → List Status
  | .BUILD => [.BUILD_ERR_K, .BUILD_ERR_EMPTY, .BUILD_ERR_K_RANGE, .BUILD_ERR_NS_RANGE, .BUILD_ERR_LIVE]
  | .EXEC => [.USAGE_ERR_HANDLE, .USAGE_ERR_EMPTY]
  | .RESET => [.USAGE_ERR_HANDLE]
  | .DESTROY => [.USAGE_ERR_HANDLE]

theorem mem_errorsOf_of_buildCheck {c : Config} {ns : BitVec 8} {k : BitVec 16} {l : Life} {e : Status}
    (h : buildCheck c ns k l = some e) : e ∈ errorsOf .BUILD := by
  unfold buildCheck at h
  split_ifs at h <;> (obtain rfl := Option.some.inj h; decide)

theorem mem_errorsOf_of_execCheck {l : Life} {ns : BitVec 8} {e : Status} (h : execCheck l ns = some e) :
    e ∈ errorsOf .EXEC := by
  obtain rfl | rfl := execCheck_some h <;> decide

/-- If a command answers a next state, it raises one of its errors, or it responds `OK`, behind the responses of the
state before (R34). -/
theorem exec_answers {i : Instr} {s t : State} (h : exec i s = .next t) :
    (∃ e ∈ errorsOf (opOf i), t = raiseError (opOf i).code e s) ∨
    (∃ payload u, t = respond (opOf i).code .OK payload u ∧ u.rsp = s.rsp) := by
  cases i with
  | build ns k p =>
    obtain ⟨-, ⟨e, he, rfl⟩ | ⟨-, rfl⟩⟩ := execBuild_cases h
    · exact .inl ⟨e, mem_errorsOf_of_buildCheck he, rfl⟩
    · exact .inr ⟨_, _, rfl, buildState_rsp ns k p s⟩
  | exec re im =>
    obtain ⟨e, he, rfl⟩ | ⟨-, -, -, rfl⟩ := execExec_cases h
    · exact .inl ⟨e, mem_errorsOf_of_execCheck he, rfl⟩
    · exact .inr ⟨_, _, rfl, rfl⟩
  | reset =>
    obtain ⟨-, rfl⟩ | ⟨-, -, rfl⟩ := execReset_cases h
    · exact .inl ⟨.USAGE_ERR_HANDLE, by decide, rfl⟩
    · exact .inr ⟨_, _, rfl, rfl⟩
  | destroy =>
    obtain ⟨-, rfl⟩ | ⟨-, rfl⟩ := execDestroy_cases h
    · exact .inl ⟨.USAGE_ERR_HANDLE, by decide, rfl⟩
    · exact .inr ⟨_, _, rfl, rfl⟩

/-- Settles O44: a response is that of a raised error, which is all that changes, or its status is `OK`. -/
theorem erroredCommandsChangeNothing : Obligations.ErroredCommandsChangeNothing := by
  intro s t i h
  obtain ⟨e, -, rfl⟩ | ⟨payload, u, rfl, hu⟩ := exec_answers h
  · exact ⟨e, [], rfl, fun _ => ⟨rfl, rfl⟩⟩
  · exact ⟨.OK, payload, by rw [respond_rsp, hu]; rfl, fun hne => absurd rfl hne⟩

/-! ### Each error is raised (R132) -/

/-- The reset state with `LIFE` put to `CREATED`: live, but with no section, which R22 (b) excludes. EXEC's check for an
empty cascade fails on such states only (R107). -/
def liveEmpty : State := { State.reset with LIFE := .CREATED }

theorem exists_build_raises (s : State) (ns : BitVec 8) (k : BitVec 16) (payload : List Word) {e : Status}
    (hp : payload.length = 5 * ns.toNat) (hc : buildCheck s.cfg ns k s.LIFE = some e) :
    ∃ s ns k payload, exec (.build ns k payload) s = .next (raiseError Op.BUILD.code e s) :=
  ⟨s, ns, k, payload, execBuild_error hp hc⟩

theorem build_raises_each_error : ∀ e ∈ errorsOf .BUILD, ∃ s ns k payload,
    exec (.build ns k payload) s = .next (raiseError Op.BUILD.code e s) := by
  simp only [errorsOf, List.forall_mem_cons]
  exact ⟨exists_build_raises .reset 1 1 (List.replicate 5 0) rfl rfl, exists_build_raises .reset 0 2 [] rfl rfl,
    exists_build_raises .reset 1 128 (List.replicate 5 0) rfl rfl,
    exists_build_raises .reset 17 2 (List.replicate 85 0) rfl rfl,
    exists_build_raises liveEmpty 1 2 (List.replicate 5 0) rfl rfl, List.forall_mem_nil _⟩

theorem exec_raises_each_error : ∀ e ∈ errorsOf .EXEC, ∃ s re im,
    exec (.exec re im) s = .next (raiseError Op.EXEC.code e s) := by
  simp only [errorsOf, List.forall_mem_cons]
  exact ⟨⟨.reset, 0, 0, execExec_notLive (s := .reset) 0 0 rfl⟩,
    ⟨liveEmpty, 0, 0, execExec_empty (s := liveEmpty) rfl rfl 0 0⟩, List.forall_mem_nil _⟩

/-- Settles O45: a command answers `OK` or an error of its row, and each row's errors are raised. -/
theorem statusCodesPerCommand : Obligations.StatusCodesPerCommand := by
  refine ⟨fun s t i h => ?_, fun code hcode => ?_, fun code hcode => ?_,
    ⟨.reset, _, execReset_notLive (s := .reset) rfl, rfl⟩,
    ⟨.reset, _, execDestroy_notLive (s := .reset) rfl, rfl⟩, fun _ _ => rfl⟩
  · obtain ⟨e, he, rfl⟩ | ⟨payload, u, rfl, hu⟩ := exec_answers h
    · exact ⟨e, [], rfl, by cases i <;> exact List.mem_cons_of_mem .OK he⟩
    · exact ⟨.OK, payload, by rw [respond_rsp, hu]; rfl, by cases i <;> exact List.mem_cons_self⟩
  · obtain ⟨e, he, rfl⟩ := List.mem_map.1 (show code ∈ (errorsOf .BUILD).map Status.code from hcode)
    obtain ⟨s, ns, k, payload, hraise⟩ := build_raises_each_error e he
    exact ⟨s, _, ns, k, payload, hraise, rfl⟩
  · obtain ⟨e, he, rfl⟩ := List.mem_map.1 (show code ∈ (errorsOf .EXEC).map Status.code from hcode)
    obtain ⟨s, re, im, hraise⟩ := exec_raises_each_error e he
    exact ⟨s, _, re, im, hraise, rfl⟩

end Sys2Proof.Machine
end

section
/-!
PROOFS. Proofs/HardwareReset.lean: what a hardware reset leaves, by a step and by an edge of `clk`, and what the ports
show during it and after it (R150, R157).
-/

namespace Sys2Proof.Machine

/-- An edge with `rst` at 1 is a hardware reset that also holds the reset level (R60, R150). -/
theorem portEdge_of_rst_true {i : PortIn} (h : i.rst = true) (ready : Bool) (s : State) :
    portEdge i ready s = { hardwareReset s with rst := true } := by simp [portEdge, h]

@[simp] theorem portOut_cmdReady_of_rst_true {i : PortIn} (h : i.rst = true) (ready : Bool) (s : State) :
    (portOut i ready s).cmdReady = false := by simp [portOut, h]

@[simp] theorem portOut_rspValid_of_rst_true {i : PortIn} (h : i.rst = true) (ready : Bool) (s : State) :
    (portOut i ready s).rspValid = false := by simp [portOut, h]

/-- With both streams empty no command waits and no response is undelivered (R150). -/
theorem State.idle_of_streams_nil {s : State} (hcmd : s.cmd = []) (hrsp : s.rsp = []) : s.idle = true :=
  (State.idle_iff s).2 ⟨by rw [hcmd, decode], hrsp⟩

/-- After an edge with `rst` at 1 the block is idle (R150). -/
theorem idle_portEdge_of_rst_true {i : PortIn} (h : i.rst = true) (ready : Bool) (s : State) :
    (portEdge i ready s).idle = true := by
  rw [portEdge_of_rst_true h]
  exact State.idle_of_streams_nil rfl rfl

/-- Settles O55: a step and an edge with `rst` at 1 are both a hardware reset, and the idle block it leaves raises
`cmd_ready` whatever the implementation's choice. -/
theorem hardwareResetDropsEverything : Obligations.HardwareResetDropsEverything := by
  refine fun s i ready => ⟨fun hs => ?_, fun hi => ?_, fun hi j ready' hj => ?_⟩
  · exact ⟨hardwareReset s, step_hardwareReset hs, rfl, rfl, rfl, rfl⟩
  · rw [portEdge_of_rst_true hi]
    exact ⟨rfl, rfl, rfl, rfl, rfl, portOut_cmdReady_of_rst_true hi ready s, portOut_rspValid_of_rst_true hi ready s⟩
  · exact (portOut_cmdReady_iff j ready' _).2 ⟨hj, .inl (idle_portEdge_of_rst_true hi ready s)⟩

end Sys2Proof.Machine
end
